-- ==== Sys2Proof/Word.lean ====
section
/-! DEFINITION. The word types of `fixed_point_big_number_alu` and the radix of a digit
(spec/00_scope.md R9 and R11, spec/30_encoding.md R50 and R55). -/

namespace Sys2Proof

/-- A digit (also limb): 64 bits, a value in `0 .. B-1` (R11, R21). -/
abbrev Digit := BitVec 64

/-- The scalar operand `K` of a command, 64 bits unsigned (R9 `KW`, R52). -/
abbrev Scalar := BitVec 64

/-- A command word `CMD` (R50). -/
abbrev CommandWord := BitVec 96

/-- A response word `RSP` (R55). -/
abbrev ResponseWord := BitVec 68

/-- The radix of a digit, `B = 2^64` (R9). -/
def base : Nat := 2 ^ 64

end Sys2Proof
end

