-- ==== Sys2Proof/Config.lean ====
section
/-! DEFINITION. The build parameters of the block (spec/00_scope.md R9) and the free values of the
one thing the spec leaves unspecified (spec/60_exceptions.md R115). -/

namespace Sys2Proof

/-- What a build fixes: `D` digits in a number and `NREG` big-number registers (R9). The other
parameters of R9 (`B`, `W`, `KW`, `IDXW`) are fixed for every build and stand in the types. -/
structure Config where
  /-- `D`, the digits in a number. -/
  d : Nat
  /-- `NREG`, the number of big-number registers. -/
  nreg : Nat
  deriving DecidableEq, Repr

namespace Config

/-- The bounds R9 puts on a build: `1 <= D <= 2^IDXW` with `IDXW = 20`, and `1 <= NREG <= 16`. -/
def legal (c : Config) : Bool :=
  decide (1 ≤ c.d) && decide (c.d ≤ 2 ^ 20) && decide (1 ≤ c.nreg) && decide (c.nreg ≤ 16)

/-- The reference build of R9: `D = 10000`, `NREG = 4`. -/
def reference : Config := { d := 10000, nreg := 4 }

/-- `LZW`, the bits of a leading-zero count: the least `n` with `2^n > D` (R9), for `D >= 1`. -/
def lzw (c : Config) : Nat := Nat.log2 c.d + 1

/-- The digit at index `i` that a `NEGATIVE_RESULT` fault leaves in the destination register, for
the fault numbered by its first argument: unspecified by R115, so nothing is known of it (log
entry 5). -/
opaque freeDigit : Nat → Nat → Digit

/-- The leading-zero count that a `NEGATIVE_RESULT` fault leaves in the destination register, for
the fault numbered by its argument, before it is cut to the count's width: unspecified by R115
(log entry 5). -/
opaque freeCount : Nat → Nat

end Config

end Sys2Proof
end

