-- ==== Sys2Proof/Machine/State.lean ====
section
/-! DEFINITION. The state of the block (spec/10_state.md R20 to R31), the inputs and responses of
its ports (spec/30_encoding.md R55 and R56), and the state after reset
(spec/70_reset_and_hazards.md R140). -/

namespace Sys2Proof.Machine

/-- A fault cause of the block (R110). Raising one is an ordinary step of this machine: it changes
`FAULT` and `FCAUSE` and answers the command (R112). -/
inductive Cause where
  | illegalCommand
  | illegalArgument
  | negativeResult
  | indexRange
  deriving DecidableEq, Repr

/-- The field `STATUS` of a response; the codes 5 to 14 are never produced (R55). -/
inductive Status where
  | ok
  | illegalCommand
  | illegalArgument
  | negativeResult
  | indexRange
  /-- The block was already in the fault state; the command was not executed (R111). -/
  | faulted
  deriving DecidableEq, Repr

/-- A response: the fields of the 68-bit response word (R55). -/
structure Response where
  status : Status
  data : Digit
  deriving DecidableEq, Repr

/-- What the client does to the block (R56, R126): it presents a command word, takes the oldest
response it has not taken, or asserts reset. -/
inductive Input where
  | command (w : CommandWord)
  | takeResponse
  | reset
  deriving DecidableEq, Repr

/-- A big-number register: its digits, index 0 the most significant, and its leading-zero count
(R20 to R22). -/
structure BigNum where
  dig : List Digit
  lzc : Nat
  deriving DecidableEq, Repr

/-- The number zero of `d` digits: every digit 0, the count `d` (R29). -/
def BigNum.zero (d : Nat) : BigNum := { dig := List.replicate d 0#64, lzc := d }

/-- Everything the block holds between two commands (R20 to R26, R30), what stands at its ports,
and two fields of the model's own: the build's parameters and the counter of free values. -/
structure State where
  /-- The build's `D` and `NREG` (R9), fixed for the machine; no input changes them (log entry 1). -/
  cfg : Config
  /-- The register file `R[0] .. R[NREG-1]` (R20): all of the limb space (R32). -/
  regs : List BigNum
  /-- `FAULT`, 1 bit (R26). -/
  fault : Bool
  /-- `FCAUSE`, 4 bits (R26). -/
  fcause : BitVec 4
  /-- What the client does next, in order (R10, R38; log entry 2). -/
  inbox : List Input
  /-- The responses issued and not yet taken, oldest first (R56; log entry 3). -/
  responses : List Response
  /-- The number of `NEGATIVE_RESULT` faults so far: the index of the next free value (R115; log
  entry 5). -/
  freeTick : Nat
  deriving DecidableEq, Repr

/-- Why a step could stop without a next state. It has NO constructor: the spec gives the block a
move for every input (R126), every violated precondition is a fault state that the machine enters
and stays in (R112, R113), so no step ever ends in a host-level fault. Safe: nothing is left out by
it. -/
inductive Fault where
  deriving DecidableEq, Repr

/-- Why an instruction has no meaning in this model. -/
inductive Refusal where
  /-- An arm of `exec` whose instruction has no meaning yet, named by its mnemonic. No arm of this
  model raises it. Safe: nothing is proved of an instruction that is refused. -/
  | notModelled (mnemonic : String)
  deriving DecidableEq, Repr

/-- The state after reset of a block built with `cfg` (R29, R140): every register exactly zero,
`FAULT = 0`, `FCAUSE = 0`, nothing at the ports. -/
def State.resetOf (cfg : Config) : State :=
  { cfg := cfg
    regs := List.replicate cfg.nreg (BigNum.zero cfg.d)
    fault := false
    fcause := 0
    inbox := []
    responses := []
    freeTick := 0 }

/-- The state after reset of the reference build, `D = 10000` and `NREG = 4` (R9, R29, R140). -/
def State.reset : State := State.resetOf Config.reference

end Sys2Proof.Machine
end

