-- ==== Sys2Proof/Machine/Flags.lean ====
section
/-! DEFINITION. What the block computes about its state rather than stores: the leading-zero count
of a digit array (spec/40_zero_tracker.md R60), the predicate isZero (spec/10_state.md R25), the
codes of fault causes and statuses (spec/10_state.md R26, spec/30_encoding.md R55), and the output
`fault` (spec/60_exceptions.md R117). The block has no carry, borrow, overflow or sign flag (R25). -/

namespace Sys2Proof.Machine

/-- `LZ`: the least index of a non-zero digit, or the length when every digit is 0 (R60). -/
def leadingZeros : List Digit → Nat
  | [] => 0
  | a :: as => if a = 0 then leadingZeros as + 1 else 0

/-- isZero: `lzc = D` (R25). -/
def BigNum.isZero (d : Nat) (b : BigNum) : Bool := b.lzc == d

/-- The code of a fault cause in `FCAUSE` (R26, R110). -/
def Cause.code : Cause → BitVec 4
  | .illegalCommand => 1
  | .illegalArgument => 2
  | .negativeResult => 3
  | .indexRange => 4

/-- The status that reports a fault cause; its code is the cause's (R55). -/
def Cause.status : Cause → Status
  | .illegalCommand => .illegalCommand
  | .illegalArgument => .illegalArgument
  | .negativeResult => .negativeResult
  | .indexRange => .indexRange

/-- The code of a status in `STATUS` (R55). -/
def Status.code : Status → BitVec 4
  | .ok => 0
  | .illegalCommand => 1
  | .illegalArgument => 2
  | .negativeResult => 3
  | .indexRange => 4
  | .faulted => 15

/-- The response word: `STATUS` in bits 67 to 64, `DATA` in bits 63 to 0 (R55). -/
def Response.word (r : Response) : ResponseWord := r.status.code ++ r.data

/-- The level output `fault`, equal to the `FAULT` bit at all times (R117). -/
def State.faultOutput (s : State) : Bool := s.fault

end Sys2Proof.Machine
end

