-- ==== Sys2Proof/Machine/Operands.lean ====
section
/-! DEFINITION. The operand forms of the block: a register number, a digit index, a scalar
(spec/30_encoding.md R52), and the checks of the decode order on them (R59 steps 3 to 5,
spec/60_exceptions.md R110 and R114). There is no other addressing form (spec/44_move_access.md). -/

namespace Sys2Proof.Machine

/-- `R[r]`. A number that names no register reads as zero; no command reads one (R59 step 3). -/
def State.reg (s : State) (r : Nat) : BigNum := s.regs[r]?.getD (BigNum.zero s.cfg.d)

/-- `LimbRead(r, i) = R[r].dig[i]` (R32). An index that names no digit reads as 0; no command reads
one (R59 step 4). -/
def State.limbRead (s : State) (r i : Nat) : Digit := (s.reg r).dig[i]?.getD 0

/-- Some register number names no register of the build (R59 step 3). -/
def badRegister (cfg : Config) (regs : List Nat) : Bool := regs.any fun r => decide (cfg.nreg ≤ r)

/-- The digit index, of a command that has one, names no digit of the build (R59 step 4). -/
def badIndex (cfg : Config) : Option Nat → Bool
  | none => false
  | some i => decide (cfg.d ≤ i)

/-- The divisor, of a command that has one, is zero (R59 step 5). -/
def badDivisor : Option Scalar → Bool
  | none => false
  | some k => k == 0

/-- The fault that the operands of a command raise before it executes: the first of the checks of
R59 steps 3 to 5 that fires. `regs` are the register numbers the command uses, `idx` its digit index
and `divisor` its divisor, where it has one. -/
def operandFault (cfg : Config) (regs : List Nat) (idx : Option Nat) (divisor : Option Scalar) :
    Option Cause :=
  if badRegister cfg regs then some .illegalCommand
  else if badIndex cfg idx then some .indexRange
  else if badDivisor divisor then some .illegalArgument
  else none

end Sys2Proof.Machine
end

