-- ==== Sys2Proof/Machine/Ops.lean ====
section
/-! DEFINITION. The shared operations of the block: writing a register, responding, raising a fault
(spec/60_exceptions.md R112 to R115), the checks every command passes (spec/30_encoding.md R59),
and the digit loops of the arithmetic units (spec/41_scalar_divide.md, spec/42_scalar_multiply.md,
spec/43_add_sub.md). -/

namespace Sys2Proof.Machine

/-! ## Registers and the response port -/

namespace State

/-- `R[r] <- b`. -/
def writeReg (s : State) (r : Nat) (b : BigNum) : State := { s with regs := s.regs.set r b }

/-- Write all digits of a register, and with them its count: the tracker law (R61). -/
def writeDigits (s : State) (r : Nat) (ds : List Digit) : State :=
  s.writeReg r { dig := ds, lzc := leadingZeros ds }

/-- `respond(status, data)`: one response, after every earlier one (R55, R56). -/
def respond (s : State) (status : Status) (data : Digit) : State :=
  { s with responses := s.responses ++ [{ status := status, data := data }] }

/-! ## Taking a fault, and leaving the fault state -/

/-- `raise Fault(c)`: set `FAULT`, record the cause, answer with it (R112). -/
def raise (s : State) (c : Cause) : State :=
  { s with
    fault := true
    fcause := c.code
    responses := s.responses ++ [{ status := c.status, data := 0 }] }

/-- The answer to any command while `FAULT = 1`: `respond(FAULTED, zext_64(FCAUSE))` (R113). -/
def answerFaulted (s : State) : State := s.respond .faulted (s.fcause.setWidth 64)

/-- A register whose digits and count are unspecified (R115): free values numbered `tick`, the
digits 64 bits each and the count of the width `LZW` that the storage has (R21, R22). -/
def unspecified (cfg : Config) (tick : Nat) : BigNum :=
  { dig := (List.range cfg.d).map (Config.freeDigit tick)
    lzc := Config.freeCount tick % 2 ^ cfg.lzw }

/-- Leave register `r` unspecified, with free values no other fault has had (R115). -/
def spoil (s : State) (r : Nat) : State :=
  { s with regs := s.regs.set r (unspecified s.cfg s.freeTick), freeTick := s.freeTick + 1 }

/-- The reset input, the only way out of the fault state (R113, R118, R140): every register zero,
`FAULT` and `FCAUSE` 0, responses not yet taken dropped. What the client does afterwards (`rest`)
stands, and the count of free values goes on. -/
def assertReset (s : State) (rest : List Input) : State :=
  { resetOf s.cfg with inbox := rest, freeTick := s.freeTick }

end State

/-! ## The checks every command passes -/

/-- Steps 1 and 3 to 6 of R59 for a command that uses the registers `regs`, the digit index `idx`
and the divisor `divisor`: already faulted, then the operand checks, then the command's own rule. -/
def runCommand (regs : List Nat) (idx : Option Nat) (divisor : Option Scalar)
    (rule : State → State) (s : State) : Host.Outcome State Fault Refusal :=
  if s.fault then .next s.answerFaulted
  else
    match operandFault s.cfg regs idx divisor with
    | some c => .next (s.raise c)
    | none => .next (rule s)

/-! ## The digit loops -/

/-- Truncation of an intermediate to a digit: `v mod B` in 64 bits (R11, R21). -/
def lowDigit (v : Nat) : Digit := BitVec.ofNat 64 v

/-- `DivStep(rem, a, d)`: the quotient digit and the next remainder (R70). -/
def divStep (rem : Nat) (a : Digit) (d : Nat) : Digit × Nat :=
  let numerator := rem * base + a.toNat
  (lowDigit (numerator / d), numerator % d)

/-- Long division by `d`, most significant digit first, from the remainder `rem`; the last remainder
is dropped (R70, R72, R73). -/
def divDigits (d : Nat) : Nat → List Digit → List Digit
  | _, [] => []
  | rem, a :: as => (divStep rem a d).1 :: divDigits d (divStep rem a d).2 as

/-- The loop of `RECIP`: `n` digits of the expansion of `rem / x` (R71). -/
def recipDigits (x : Nat) : Nat → Nat → List Digit
  | 0, _ => []
  | n + 1, rem => lowDigit (rem * base / x) :: recipDigits x n (rem * base % x)

/-- The loop of `SCALE`, least significant digit first: the new digits and the carry out of index 0
(R80). -/
def scaleDigits (k : Nat) : List Digit → List Digit × Nat
  | [] => ([], 0)
  | a :: as =>
    let low := scaleDigits k as
    let carry := low.2 + k * a.toNat
    (lowDigit carry :: low.1, carry / base)

/-- The loop of the adder, least significant digit first, from the carry `c`: the digits of the sum
and the carry out of index 0 (R85). -/
def addDigits (c : Nat) : List Digit → List Digit → List Digit × Nat
  | a :: as, b :: bs =>
    let low := addDigits c as bs
    let res := low.2 + a.toNat + b.toNat
    (lowDigit res :: low.1, res / base)
  | _, _ => ([], c)

/-- The loop of the subtractor: the adder fed the complement of the second operand with an initial
carry of 1 (R87). -/
def subDigits (as bs : List Digit) : List Digit × Nat := addDigits 1 as (bs.map (~~~ ·))

end Sys2Proof.Machine
end

