-- ==== Sys2Proof/Machine/AddSub.lean ====
section
/-! DEFINITION. The units `multi_limb_adder` and `multi_limb_subtractor`: `ADD`, `SUB`
(spec/43_add_sub.md). -/

namespace Sys2Proof.Machine

/-- `ADD rd, rs`: the sum, the carry out of digit 0 discarded (R85). -/
def execAdd (rd rs : Nat) (s : State) : Host.Outcome State Fault Refusal :=
  runCommand [rd, rs] none none
    (fun s => (s.writeDigits rd (addDigits 0 (s.reg rd).dig (s.reg rs).dig).1).respond .ok 0) s

/-- `SUB rd, rs`: the difference; when a borrow leaves digit 0 (the last carry is 0) the destination
is left unspecified and `NEGATIVE_RESULT` is raised (R87, R115). -/
def execSub (rd rs : Nat) (s : State) : Host.Outcome State Fault Refusal :=
  runCommand [rd, rs] none none
    (fun s =>
      let difference := subDigits (s.reg rd).dig (s.reg rs).dig
      match difference.2 with
      | 0 => (s.spoil rd).raise .negativeResult
      | _ + 1 => (s.writeDigits rd difference.1).respond .ok 0) s

end Sys2Proof.Machine
end

