-- ==== Sys2Proof/Machine/Move.lean ====
section
/-! DEFINITION. Data movement: `COPY`, `RDLIMB`, `WRLIMB` (spec/44_move_access.md). -/

namespace Sys2Proof.Machine

/-- `COPY rd, rs`: the digits and the count (R95). -/
def execCopy (rd rs : Nat) (s : State) : Host.Outcome State Fault Refusal :=
  runCommand [rd, rs] none none (fun s => (s.writeReg rd (s.reg rs)).respond .ok 0) s

/-- `RDLIMB rd, idx`: answer one digit (R97). -/
def execRdlimb (rd idx : Nat) (s : State) : Host.Outcome State Fault Refusal :=
  runCommand [rd] (some idx) none (fun s => s.respond .ok (s.limbRead rd idx)) s

/-- `WRLIMB rd, idx, v`: write one digit, the count rescanned (R98). -/
def execWrlimb (rd idx : Nat) (v : Digit) (s : State) : Host.Outcome State Fault Refusal :=
  runCommand [rd] (some idx) none
    (fun s => (s.writeDigits rd ((s.reg rd).dig.set idx v)).respond .ok 0) s

end Sys2Proof.Machine
end

