-- ==== Sys2Proof/Machine/ScalarDivide.lean ====
section
/-! DEFINITION. The unit `scalar_divide_unit`: `RECIP`, `DIVO`, `DIVS` (spec/41_scalar_divide.md). -/

namespace Sys2Proof.Machine

/-- `RECIP rd, x`: the base-`B` expansion of `1/x` (R71); exactly zero for `x = 1`, since the first
quotient `B` is cut to 64 bits. -/
def execRecip (rd : Nat) (x : Scalar) (s : State) : Host.Outcome State Fault Refusal :=
  runCommand [rd] none (some x)
    (fun s => (s.writeDigits rd (recipDigits x.toNat s.cfg.d 1)).respond .ok 0) s

/-- `DIVO rd, rs, d`: the quotient of the source by `d`, the destination's digits before the
source's count made 0 (R72). -/
def execDivo (rd rs : Nat) (d : Scalar) (s : State) : Host.Outcome State Fault Refusal :=
  runCommand [rd, rs] none (some d)
    (fun s =>
      let src := s.reg rs
      let quotient := List.replicate src.lzc 0#64 ++ divDigits d.toNat 0 (src.dig.drop src.lzc)
      (s.writeDigits rd quotient).respond .ok 0) s

/-- `DIVS rd, d`: division in place, starting at the register's count (R73). -/
def execDivs (rd : Nat) (d : Scalar) (s : State) : Host.Outcome State Fault Refusal :=
  runCommand [rd] none (some d)
    (fun s =>
      let old := s.reg rd
      let quotient := old.dig.take old.lzc ++ divDigits d.toNat 0 (old.dig.drop old.lzc)
      (s.writeDigits rd quotient).respond .ok 0) s

end Sys2Proof.Machine
end

