-- ==== Sys2Proof/Machine/ScalarMultiply.lean ====
section
/-! DEFINITION. The unit `scalar_multiply_unit`: `SCALE` (spec/42_scalar_multiply.md). -/

namespace Sys2Proof.Machine

/-- `SCALE rd, k`: the product by `k`, the carry out of digit 0 discarded (R80). -/
def execScale (rd : Nat) (k : Scalar) (s : State) : Host.Outcome State Fault Refusal :=
  runCommand [rd] none none
    (fun s => (s.writeDigits rd (scaleDigits k.toNat (s.reg rd).dig).1).respond .ok 0) s

end Sys2Proof.Machine
end

