-- ==== Sys2Proof/Machine/ZeroTracker.lean ====
section
/-! DEFINITION. The unit `leading_zero_tracker`: `SETZ`, `ISZ`, `RDLZC` (spec/40_zero_tracker.md). -/

namespace Sys2Proof.Machine

/-- `SETZ rd`: every digit 0, the count `D` (R62). -/
def execSetz (rd : Nat) (s : State) : Host.Outcome State Fault Refusal :=
  runCommand [rd] none none (fun s => (s.writeReg rd (BigNum.zero s.cfg.d)).respond .ok 0) s

/-- `ISZ rd`: answer 1 when the count is `D`, else 0 (R63). -/
def execIsz (rd : Nat) (s : State) : Host.Outcome State Fault Refusal :=
  runCommand [rd] none none
    (fun s => s.respond .ok (if (s.reg rd).isZero s.cfg.d then 1 else 0)) s

/-- `RDLZC rd`: answer the count, zero-extended (R64). -/
def execRdlzc (rd : Nat) (s : State) : Host.Outcome State Fault Refusal :=
  runCommand [rd] none none (fun s => s.respond .ok (BitVec.ofNat 64 (s.reg rd).lzc)) s

end Sys2Proof.Machine
end

