-- ==== Sys2Proof/Syntax.lean ====
section
/-! DEFINITION. The commands of the block, one constructor per row of spec/opcode_table.json
(spec/30_encoding.md R51 and R58): operands in the order destination, source, index, scalar. -/

namespace Sys2Proof

/-- A command. Register numbers and the digit index are numbers, since no rule shifts or masks
them; the scalar is a 64-bit word. -/
inductive Instr where
  /-- `SETZ rd` (R62). -/
  | setz (rd : Nat)
  /-- `ISZ rd` (R63). -/
  | isz (rd : Nat)
  /-- `RECIP rd, x` (R71). -/
  | recip (rd : Nat) (x : Scalar)
  /-- `SCALE rd, k` (R80). -/
  | scale (rd : Nat) (k : Scalar)
  /-- `DIVO rd, rs, d` (R72). -/
  | divo (rd rs : Nat) (d : Scalar)
  /-- `ADD rd, rs` (R85). -/
  | add (rd rs : Nat)
  /-- `SUB rd, rs` (R87). -/
  | sub (rd rs : Nat)
  /-- `DIVS rd, d` (R73). -/
  | divs (rd : Nat) (d : Scalar)
  /-- `COPY rd, rs` (R95). -/
  | copy (rd rs : Nat)
  /-- `RDLIMB rd, idx` (R97). -/
  | rdlimb (rd idx : Nat)
  /-- `WRLIMB rd, idx, v` (R98). -/
  | wrlimb (rd idx : Nat) (v : Digit)
  /-- `RDLZC rd` (R64). -/
  | rdlzc (rd : Nat)
  deriving DecidableEq, Repr

end Sys2Proof
end

