-- ==== Sys2Proof/Machine/Dispatch.lean ====
section
/-! DEFINITION. The meaning of every command: one arm per constructor of `Instr`. -/

namespace Sys2Proof.Machine

def exec (i : Instr) (s : State) : Host.Outcome State Fault Refusal :=
  match i with
  | .setz rd => Sys2Proof.Machine.execSetz rd s
  | .isz rd => Sys2Proof.Machine.execIsz rd s
  | .recip rd x => Sys2Proof.Machine.execRecip rd x s
  | .scale rd k => Sys2Proof.Machine.execScale rd k s
  | .divo rd rs d => Sys2Proof.Machine.execDivo rd rs d s
  | .add rd rs => Sys2Proof.Machine.execAdd rd rs s
  | .sub rd rs => Sys2Proof.Machine.execSub rd rs s
  | .divs rd d => Sys2Proof.Machine.execDivs rd d s
  | .copy rd rs => Sys2Proof.Machine.execCopy rd rs s
  | .rdlimb rd idx => Sys2Proof.Machine.execRdlimb rd idx s
  | .wrlimb rd idx v => Sys2Proof.Machine.execWrlimb rd idx v s
  | .rdlzc rd => Sys2Proof.Machine.execRdlzc rd s

end Sys2Proof.Machine
end

