-- ==== Sys2Proof/WellFormed.lean ====
section
/-! DEFINITION. Which commands a command word can spell (spec/30_encoding.md R50 and R52): a
register number fits the 4-bit fields `RD` and `RS`, a digit index the 20-bit field `IDX`. Whether
the register or the digit exists in a build is a check of the machine, not of the word (R59). -/

namespace Sys2Proof

/-- A register number `0 .. 15` (R52). -/
def regNumberFits (r : Nat) : Bool := decide (r < 16)

/-- A digit index `0 .. 2^20 - 1` (R52). -/
def indexFits (i : Nat) : Bool := decide (i < 2 ^ 20)

/-- Every operand fits its field. -/
def Instr.wellFormed : Instr → Bool
  | .setz rd => regNumberFits rd
  | .isz rd => regNumberFits rd
  | .recip rd _ => regNumberFits rd
  | .scale rd _ => regNumberFits rd
  | .divo rd rs _ => regNumberFits rd && regNumberFits rs
  | .add rd rs => regNumberFits rd && regNumberFits rs
  | .sub rd rs => regNumberFits rd && regNumberFits rs
  | .divs rd _ => regNumberFits rd
  | .copy rd rs => regNumberFits rd && regNumberFits rs
  | .rdlimb rd idx => regNumberFits rd && indexFits idx
  | .wrlimb rd idx _ => regNumberFits rd && indexFits idx
  | .rdlzc rd => regNumberFits rd

/-- `i` is spelled by some command word. -/
abbrev Instr.WellFormed (i : Instr) : Prop := i.wellFormed = true

end Sys2Proof
end

