-- ==== Sys2Proof/Decode.lean ====
section
/-! DEFINITION. The command encoding (spec/30_encoding.md R50 to R54, R57, R58): fields of the
96-bit command word, operation codes, the decoder, the encoder, and the opcode map of R53 written
out as match and mask words (the decoder does not use that map: a statement relates the two). -/

namespace Sys2Proof

/-- The operation a command word names in its field `OPC` (R51). -/
inductive Opcode where
  | setz | isz | recip | scale | divo | add | sub | divs | copy | rdlimb | wrlimb | rdlzc
  deriving DecidableEq, Repr

/-- Why a word spells no command (R54). Either way the block raises `Fault(ILLEGAL_COMMAND)`. -/
inductive DecodeError where
  /-- `OPC` in `{0x0, 0xD, 0xE, 0xF}`. -/
  | reservedOpcode
  /-- A known `OPC` with a non-zero field the command does not use. -/
  | unusedFieldNonZero
  deriving DecidableEq, Repr

/-! ## Fields of the command word (R50) -/

/-- `K = CMD[95:32]`. -/
def kField (w : CommandWord) : Scalar := w.extractLsb' 32 64

/-- `OPC = CMD[31:28]`. -/
def opcField (w : CommandWord) : BitVec 4 := w.extractLsb' 28 4

/-- `RD = CMD[27:24]`. -/
def rdField (w : CommandWord) : BitVec 4 := w.extractLsb' 24 4

/-- `RS = CMD[23:20]`. -/
def rsField (w : CommandWord) : BitVec 4 := w.extractLsb' 20 4

/-- `IDX = CMD[19:0]`. -/
def idxField (w : CommandWord) : BitVec 20 := w.extractLsb' 0 20

/-- The command word with the given fields (R50: `K` in the high bits, then `OPC`, `RD`, `RS`,
`IDX`). -/
def packFields (k : Scalar) (opc rd rs : BitVec 4) (idx : BitVec 20) : CommandWord :=
  k ++ opc ++ rd ++ rs ++ idx

namespace Opcode

/-! ## Operation codes and field use (R51) -/

/-- The value of `OPC` (R51). -/
def code : Opcode → BitVec 4
  | .setz => 0x1
  | .isz => 0x2
  | .recip => 0x3
  | .scale => 0x4
  | .divo => 0x5
  | .add => 0x6
  | .sub => 0x7
  | .divs => 0x8
  | .copy => 0x9
  | .rdlimb => 0xA
  | .wrlimb => 0xB
  | .rdlzc => 0xC

/-- The operation of a value of `OPC`; none for the reserved values 0x0, 0xD, 0xE, 0xF (R54). -/
def ofCode (c : BitVec 4) : Option Opcode :=
  match c.toNat with
  | 0x1 => some .setz
  | 0x2 => some .isz
  | 0x3 => some .recip
  | 0x4 => some .scale
  | 0x5 => some .divo
  | 0x6 => some .add
  | 0x7 => some .sub
  | 0x8 => some .divs
  | 0x9 => some .copy
  | 0xA => some .rdlimb
  | 0xB => some .wrlimb
  | 0xC => some .rdlzc
  | _ => none

/-- The column "uses RS" of R51. -/
def usesRS : Opcode → Bool
  | .divo | .add | .sub | .copy => true
  | .setz | .isz | .recip | .scale | .divs | .rdlimb | .wrlimb | .rdlzc => false

/-- The column "uses IDX" of R51. -/
def usesIDX : Opcode → Bool
  | .rdlimb | .wrlimb => true
  | .setz | .isz | .recip | .scale | .divo | .add | .sub | .divs | .copy | .rdlzc => false

/-- The column "uses K" of R51. -/
def usesK : Opcode → Bool
  | .recip | .scale | .divo | .divs | .wrlimb => true
  | .setz | .isz | .add | .sub | .copy | .rdlimb | .rdlzc => false

/-- The commands whose scalar is a divisor, so that `K = 0` faults (R59 step 5). -/
def divides : Opcode → Bool
  | .recip | .divo | .divs => true
  | .setz | .isz | .scale | .add | .sub | .copy | .rdlimb | .wrlimb | .rdlzc => false

/-! ## The opcode map (R53) -/

/-- The column "match" of R53. -/
def matchWord : Opcode → CommandWord
  | .setz => 0x000000000000000010000000
  | .isz => 0x000000000000000020000000
  | .recip => 0x000000000000000030000000
  | .scale => 0x000000000000000040000000
  | .divo => 0x000000000000000050000000
  | .add => 0x000000000000000060000000
  | .sub => 0x000000000000000070000000
  | .divs => 0x000000000000000080000000
  | .copy => 0x000000000000000090000000
  | .rdlimb => 0x0000000000000000A0000000
  | .wrlimb => 0x0000000000000000B0000000
  | .rdlzc => 0x0000000000000000C0000000

/-- The column "mask" of R53. -/
def maskWord : Opcode → CommandWord
  | .setz => 0xFFFFFFFFFFFFFFFFF0FFFFFF
  | .isz => 0xFFFFFFFFFFFFFFFFF0FFFFFF
  | .recip => 0x0000000000000000F0FFFFFF
  | .scale => 0x0000000000000000F0FFFFFF
  | .divo => 0x0000000000000000F00FFFFF
  | .add => 0xFFFFFFFFFFFFFFFFF00FFFFF
  | .sub => 0xFFFFFFFFFFFFFFFFF00FFFFF
  | .divs => 0x0000000000000000F0FFFFFF
  | .copy => 0xFFFFFFFFFFFFFFFFF00FFFFF
  | .rdlimb => 0xFFFFFFFFFFFFFFFFF0F00000
  | .wrlimb => 0x0000000000000000F0F00000
  | .rdlzc => 0xFFFFFFFFFFFFFFFFF0FFFFFF

/-- `w` spells the command of this row: `w AND mask = match` (R53). -/
def spelledBy (op : Opcode) (w : CommandWord) : Prop := w &&& op.maskWord = op.matchWord

/-- The command of an operation with the given operands; operands it does not use are dropped. -/
def build (op : Opcode) (rd rs idx : Nat) (k : Scalar) : Instr :=
  match op with
  | .setz => .setz rd
  | .isz => .isz rd
  | .recip => .recip rd k
  | .scale => .scale rd k
  | .divo => .divo rd rs k
  | .add => .add rd rs
  | .sub => .sub rd rs
  | .divs => .divs rd k
  | .copy => .copy rd rs
  | .rdlimb => .rdlimb rd idx
  | .wrlimb => .wrlimb rd idx k
  | .rdlzc => .rdlzc rd

end Opcode

/-! ## The decoder -/

/-- The fields the operation does not use are all zero (R51). -/
def unusedFieldsZero (op : Opcode) (w : CommandWord) : Bool :=
  (op.usesRS || rsField w == 0) && (op.usesIDX || idxField w == 0) && (op.usesK || kField w == 0)

/-- The command a word spells, or why it spells none (R51, R53, R54). -/
def decode (w : CommandWord) : Except DecodeError Instr :=
  match Opcode.ofCode (opcField w) with
  | none => .error .reservedOpcode
  | some op =>
    if unusedFieldsZero op w then
      .ok (op.build (rdField w).toNat (rsField w).toNat (idxField w).toNat (kField w))
    else .error .unusedFieldNonZero

/-- The command word whose bits are the number `w` cut to `nbits` bits (at most 96), bit 0 the
least significant, as spec/opcode_table.json numbers them. -/
def tableWord (nbits w : Nat) : CommandWord := BitVec.ofNat 96 (w % 2 ^ nbits)

/-- The decoder on a word of the opcode table; a word longer than a command (R57) spells none. -/
def decodeTableWord (nbits w : Nat) : Option Instr :=
  if 96 < nbits then none else (decode (tableWord nbits w)).toOption

/-! ## The encoder -/

namespace Instr

/-- The operation of a command. -/
def opcode : Instr → Opcode
  | .setz .. => .setz
  | .isz .. => .isz
  | .recip .. => .recip
  | .scale .. => .scale
  | .divo .. => .divo
  | .add .. => .add
  | .sub .. => .sub
  | .divs .. => .divs
  | .copy .. => .copy
  | .rdlimb .. => .rdlimb
  | .wrlimb .. => .wrlimb
  | .rdlzc .. => .rdlzc

/-- The mnemonic (R51, R58). -/
def mnemonic : Instr → String
  | .setz .. => "SETZ"
  | .isz .. => "ISZ"
  | .recip .. => "RECIP"
  | .scale .. => "SCALE"
  | .divo .. => "DIVO"
  | .add .. => "ADD"
  | .sub .. => "SUB"
  | .divs .. => "DIVS"
  | .copy .. => "COPY"
  | .rdlimb .. => "RDLIMB"
  | .wrlimb .. => "WRLIMB"
  | .rdlzc .. => "RDLZC"

/-- The assembler's name of a register, `r0` to `r15` (R20, R58). -/
def regName (r : Nat) : String := "r" ++ toString r

/-- The assembler spelling of R58, scalars in decimal. -/
def assembly (i : Instr) : String :=
  match i with
  | .setz rd | .isz rd | .rdlzc rd => i.mnemonic ++ " " ++ regName rd
  | .recip rd k | .scale rd k | .divs rd k =>
    i.mnemonic ++ " " ++ regName rd ++ ", " ++ toString k.toNat
  | .divo rd rs k =>
    i.mnemonic ++ " " ++ regName rd ++ ", " ++ regName rs ++ ", " ++ toString k.toNat
  | .add rd rs | .sub rd rs | .copy rd rs =>
    i.mnemonic ++ " " ++ regName rd ++ ", " ++ regName rs
  | .rdlimb rd idx => i.mnemonic ++ " " ++ regName rd ++ ", " ++ toString idx
  | .wrlimb rd idx v =>
    i.mnemonic ++ " " ++ regName rd ++ ", " ++ toString idx ++ ", " ++ toString v.toNat

end Instr

/-- The word of a command: its operation code and operands in their fields, zero in the fields it
does not use (R50, R51). -/
def encode (i : Instr) : CommandWord :=
  let put (rd rs idx : Nat) (k : Scalar) : CommandWord :=
    packFields k i.opcode.code (BitVec.ofNat 4 rd) (BitVec.ofNat 4 rs) (BitVec.ofNat 20 idx)
  match i with
  | .setz rd => put rd 0 0 0
  | .isz rd => put rd 0 0 0
  | .recip rd x => put rd 0 0 x
  | .scale rd k => put rd 0 0 k
  | .divo rd rs d => put rd rs 0 d
  | .add rd rs => put rd rs 0 0
  | .sub rd rs => put rd rs 0 0
  | .divs rd d => put rd 0 0 d
  | .copy rd rs => put rd rs 0 0
  | .rdlimb rd idx => put rd 0 idx 0
  | .wrlimb rd idx v => put rd 0 idx v
  | .rdlzc rd => put rd 0 0 0

end Sys2Proof
end

