-- ==== Sys2Proof/Machine/Ports.lean ====
section
/-! DEFINITION. What one input of the client does to the block (spec/30_encoding.md R56 and R59,
spec/60_exceptions.md R126, spec/70_reset_and_hazards.md R140). The meaning of a decoded command is
an argument here; `Step.lean` gives `exec` for it. -/

namespace Sys2Proof.Machine

/-- The client takes the oldest response (R126). -/
def State.takeOldest (s : State) (rest : List Input) : State :=
  { s with inbox := rest, responses := s.responses.tail }

/-- The command port accepts the next command: the word is sampled once and does not stay at the
port (R56). -/
def State.accept (s : State) (rest : List Input) : State := { s with inbox := rest }

/-- A command word, in the order of R59: already faulted, then the encoding, then the command. -/
def handleWord (run : Instr → State → Host.Outcome State Fault Refusal) (w : CommandWord)
    (s : State) : Host.Outcome State Fault Refusal :=
  if s.fault then .next s.answerFaulted
  else
    match decode w with
    | .error _ => .next (s.raise .illegalCommand)
    | .ok i => run i s

/-- One step of the block: the next input, or none (an idle block has no command, R125). -/
def handleInput (run : Instr → State → Host.Outcome State Fault Refusal) (s : State) :
    Host.Outcome State Fault Refusal :=
  match s.inbox with
  | [] => .next s
  | .command w :: rest => handleWord run w (s.accept rest)
  | .takeResponse :: rest => .next (s.takeOldest rest)
  | .reset :: rest => .next (s.assertReset rest)

/-- The client presents the command word of a table row before anything else it would do. -/
def State.presentTableWord (s : State) (nbits w : Nat) : State :=
  { s with inbox := .command (tableWord nbits w) :: s.inbox }

end Sys2Proof.Machine
end

