-- ==== Sys2Proof/Machine/Step.lean ====
section
/-! DEFINITION. One step of the block (spec/00_scope.md R10, spec/30_encoding.md R59). -/

namespace Sys2Proof.Machine

/-- The block handles the client's next input with the commands' own meanings. -/
def step (s : State) : Host.Outcome State Fault Refusal := handleInput exec s

/-- `s` with the word of a table row at the command port, next to be accepted (log entry 4). -/
def State.withFetchWord (s : State) (nbits w : Nat) : State := s.presentTableWord nbits w

end Sys2Proof.Machine
end

