-- ==== Sys2Proof/Safety.lean ====
section
/-! DEFINITION. The terms in which claims about the block are stated: the value of a register
(spec/00_scope.md R11), the invariant of the state (spec/10_state.md R23 and R26), what a command may
change, and what a client can observe (spec/60_exceptions.md R113 and R115). A safe run is one that
keeps the invariant and raises no fault (R113). -/

namespace Sys2Proof.Machine

/-- The numerator of a digit array, `sum of a[i] * B^(D-1-i)` (R11). -/
def numerator : List Digit → Nat
  | [] => 0
  | a :: as => a.toNat * base ^ as.length + numerator as

/-- `N(r)`, the numerator of register `r` (R11). -/
def State.num (s : State) (r : Nat) : Nat := numerator (s.reg r).dig

/-- The count of register `r` is exact: `R[r].lzc = LZ(R[r].dig)` (R23). -/
def State.tracked (s : State) (r : Nat) : Prop := (s.reg r).lzc = leadingZeros (s.reg r).dig

/-- The limb space has the build's shape: `NREG` registers of `D` digits each (R20, R21, R32). -/
def State.limbSpaceWf (s : State) : Bool :=
  s.regs.length == s.cfg.nreg && s.regs.all fun b => b.dig.length == s.cfg.d

/-- What holds of the block between any two commands. -/
structure State.Inv (s : State) : Prop where
  /-- The build is one R9 allows. -/
  legalBuild : s.cfg.legal = true
  /-- The limb space has the build's shape. -/
  shape : s.limbSpaceWf = true
  /-- Every count fits its `LZW` bits (R22). -/
  countWidth : ∀ b ∈ s.regs, b.lzc < 2 ^ s.cfg.lzw
  /-- `FAULT = 0` iff `FCAUSE = 0` (R26). -/
  faultIffCause : s.fault = false ↔ s.fcause = 0
  /-- `FCAUSE` is 0 or the code of a cause: 5 to 15 are never written (R26). -/
  knownCause : s.fcause.toNat ≤ 4
  /-- Every count is exact (R23), but for the destination of a `SUB` that went negative (R115). -/
  counts : (∀ r, r < s.cfg.nreg → s.tracked r) ∨
    (s.fcause = 3 ∧ ∃ rd, ∀ r, r < s.cfg.nreg → r ≠ rd → s.tracked r)

/-- A state of a safe run: the invariant holds and no fault has been raised. -/
structure State.Running (s : State) : Prop where
  inv : s.Inv
  noFault : s.fault = false

/-- `t` is `s` after a command that wrote at most register `rd` and answered `OK` with data 0: every
other register, the fault status and everything that is not a register or a response stand. -/
structure State.OnlyWrote (rd : Nat) (s t : State) : Prop where
  others : ∀ r, r ≠ rd → t.reg r = s.reg r
  registers : t.regs.length = s.regs.length
  responses : t.responses = s.responses ++ [{ status := .ok, data := 0 }]
  fault : t.fault = s.fault
  fcause : t.fcause = s.fcause
  cfg : t.cfg = s.cfg
  inbox : t.inbox = s.inbox
  freeTick : t.freeTick = s.freeTick

/-- `t` is `s` after the fault `c` was raised with no register changed (R112). -/
def State.raised (s : State) (c : Cause) : State :=
  { s with
    fault := true
    fcause := c.code
    responses := s.responses ++ [{ status := c.status, data := 0 }] }

/-- Two states no client can tell apart: the same build, inputs, responses and fault status, and the
same registers unless the block is faulted (R113, R115). -/
structure State.Alike (s t : State) : Prop where
  cfg : s.cfg = t.cfg
  inbox : s.inbox = t.inbox
  responses : s.responses = t.responses
  fault : s.fault = t.fault
  fcause : s.fcause = t.fcause
  regs : s.fault = false → s.regs = t.regs

/-- `n` times the same command, each from the state the one before left. -/
def execTimes (i : Instr) : Nat → State → Host.Outcome State Fault Refusal
  | 0, s => .next s
  | n + 1, s =>
    match exec i s with
    | .next t => execTimes i n t
    | .fault f => .fault f
    | .refused r => .refused r

end Sys2Proof.Machine
end

