-- ==== Sys2Proof/Certificates/Slice0/Obligations.lean ====
section
/-! DEFINITION. The statements for the provers, in the terms of Safety.lean. Each docstring names the
rule of spec/ it formalises. -/

open Sys2Proof Sys2Proof.Machine

/-! ## Encoding -/

/-- 30_encoding.md R50 to R53: no bit of an encoding is dropped, for any command and any operands. -/
def Obligations.DecodeOfEncodeIsTheCommand : Prop :=
  ∀ i : Instr, i.WellFormed → decode (encode i) = .ok i

/-- 30_encoding.md R51 and R54 (92_eei_decisions.md D13, "gives every word exactly one meaning"): a
word that spells a command is the one word of that command. -/
def Obligations.EncodeOfDecodeIsTheWord : Prop :=
  ∀ (w : CommandWord) (i : Instr), decode w = .ok i → i.WellFormed ∧ encode i = w

/-- R50: where the fields of the command word stand. -/
def Obligations.FieldsStandWhereTheCommandFormatPutsThem : Prop :=
  ∀ w : CommandWord,
    (kField w).toNat = w.toNat / 2 ^ 32 ∧
    (opcField w).toNat = w.toNat / 2 ^ 28 % 2 ^ 4 ∧
    (rdField w).toNat = w.toNat / 2 ^ 24 % 2 ^ 4 ∧
    (rsField w).toNat = w.toNat / 2 ^ 20 % 2 ^ 4 ∧
    (idxField w).toNat = w.toNat % 2 ^ 20

/-- R53: a word spells the command of a row iff `w AND mask = match`, with the match and mask words
of the rule's table, and no word is spelled by two rows. -/
def Obligations.DecoderAgreesWithTheOpcodeMap : Prop :=
  (∀ (w : CommandWord) (op : Opcode),
    (∃ i, decode w = .ok i ∧ i.opcode = op) ↔ op.spelledBy w) ∧
  (∀ (w : CommandWord) (op op' : Opcode), op.spelledBy w → op'.spelledBy w → op = op')

/-- R54: the illegal words are those with a reserved `OPC` and those with a known `OPC` and a
non-zero unused field, and one of them raises `ILLEGAL_COMMAND` and changes no register. -/
def Obligations.IllegalWordsRaiseIllegalCommand : Prop :=
  (∀ w : CommandWord, (∀ op : Opcode, ¬ op.spelledBy w) ↔
    (opcField w = 0x0 ∨ opcField w = 0xD ∨ opcField w = 0xE ∨ opcField w = 0xF) ∨
    (∃ op : Opcode, opcField w = op.code ∧
      ((op.usesRS = false ∧ rsField w ≠ 0) ∨ (op.usesIDX = false ∧ idxField w ≠ 0) ∨
       (op.usesK = false ∧ kField w ≠ 0)))) ∧
  (∀ (s : State) (w : CommandWord) (rest : List Input),
    s.inbox = .command w :: rest → s.fault = false → (∀ op : Opcode, ¬ op.spelledBy w) →
    step s = .next
      { s with
        inbox := rest
        fault := true
        fcause := 1
        responses := s.responses ++ [{ status := .illegalCommand, data := 0 }] })

/-- Words written out from the tables of R50 and R51 by hand decode to the commands they stand for, one of
each family (sanity). -/
def Obligations.HandWrittenWordsDecode : Prop :=
  decode 0x000000000000000330000000 = .ok (.recip 0 3) ∧
  decode 0x000000000000000752100000 = .ok (.divo 2 1 7) ∧
  decode 0x800000000000000081000000 = .ok (.divs 1 0x8000000000000000) ∧
  decode 0x000000000000000441000000 = .ok (.scale 1 4) ∧
  decode 0x000000000000000060100000 = .ok (.add 0 1) ∧
  decode 0x000000000000000070300000 = .ok (.sub 0 3) ∧
  decode 0x000000000000000093000000 = .ok (.copy 3 0) ∧
  decode 0x00000000DEADBEEFB0000001 = .ok (.wrlimb 0 1 0xDEADBEEF) ∧
  decode 0x0000000000000000AF0FFFFF = .ok (.rdlimb 15 0xFFFFF) ∧
  decode 0x0000000000000000C1000000 = .ok (.rdlzc 1) ∧
  decode 0x0000000000000000D0000000 = .error .reservedOpcode ∧
  decode 0x000000000000000160100000 = .error .unusedFieldNonZero

/-! ## A step -/

/-- A command word at the port that spells `i` makes the step the meaning of `i`, with the word taken
from the port (R56 b). The second clause is the model's choice: that `withFetchWord` stands for the
client presenting a word (log entry 4), and that a table word of fewer than 96 bits is a command word
with zeros above and a longer one spells none (log entry 14). -/
def Obligations.StepRunsTheDecodedCommand : Prop :=
  (∀ (s : State) (w : CommandWord) (rest : List Input) (i : Instr),
    s.inbox = .command w :: rest → decode w = .ok i → step s = exec i { s with inbox := rest }) ∧
  (∀ (s : State) (nbits w : Nat) (i : Instr),
    decodeTableWord nbits w = some i → step (s.withFetchWord nbits w) = exec i s)

/-- R126 ("the model has a move for every input") and R56 f: a step always answers a next state. -/
def Obligations.EveryStepHasANextState : Prop :=
  ∀ s : State, ∃ t, step s = .next t

/-- The port behaviour the model chose (log entries 2 and 3): with no input the block idles, and a
taken response is the oldest. -/
def Obligations.IdleAndTakenResponses : Prop :=
  (∀ s : State, s.inbox = [] → step s = .next s) ∧
  (∀ (s : State) (rest : List Input) (r : Response) (rs : List Response),
    s.inbox = .takeResponse :: rest → s.responses = r :: rs →
    step s = .next { s with inbox := rest, responses := rs })

/-- R38 and R56 d and e: a command leaves the port, and adds exactly one response, after all earlier
ones. -/
def Obligations.EachCommandAddsOneResponse : Prop :=
  ∀ (s : State) (w : CommandWord) (rest : List Input), s.inbox = .command w :: rest →
    ∃ (t : State) (r : Response),
      step s = .next t ∧ t.inbox = rest ∧ t.responses = s.responses ++ [r]

/-- R55: every accepted command produces one response; the response word's fields, which statuses are
produced, and what `DATA` holds for each status and command. -/
def Obligations.ResponsesHoldWhatTheResponseTableSays : Prop :=
  (∀ r : Response, r.word.toNat = r.status.code.toNat * 2 ^ 64 + r.data.toNat) ∧
  (∀ (s : State) (w : CommandWord) (rest : List Input), s.inbox = .command w :: rest →
    ∃ (t : State) (r : Response),
      step s = .next t ∧ t.responses = s.responses ++ [r] ∧
      (r.status.code = 0 ∨ r.status.code = 1 ∨ r.status.code = 2 ∨ r.status.code = 3 ∨
        r.status.code = 4 ∨ r.status.code = 15) ∧
      (r.status.code = 15 ↔ s.fault = true) ∧
      (r.status.code = 15 →
        r.data.toNat = s.fcause.toNat ∧ t.fcause = s.fcause ∧ t.regs = s.regs) ∧
      (1 ≤ r.status.code.toNat → r.status.code.toNat ≤ 4 →
        r.data = 0 ∧ t.fcause = r.status.code) ∧
      (r.status.code = 0 →
        (∀ rd, decode w = .ok (.isz rd) → r.data = if (s.reg rd).lzc = s.cfg.d then 1 else 0) ∧
        (∀ rd, decode w = .ok (.rdlzc rd) → r.data = BitVec.ofNat 64 (s.reg rd).lzc) ∧
        (∀ rd idx, decode w = .ok (.rdlimb rd idx) → r.data = s.limbRead rd idx) ∧
        (∀ i, decode w = .ok i → i.opcode ≠ .isz → i.opcode ≠ .rdlzc → i.opcode ≠ .rdlimb →
          r.data = 0)))

/-! ## Faults and reset -/

/-- R59: the order in which a command word is handled; the first test that fires ends the command,
and steps 1 to 5 change no register. -/
def Obligations.ChecksFireInTheDecodeOrder : Prop :=
  ∀ (s : State) (w : CommandWord) (rest : List Input), s.inbox = .command w :: rest →
    let s₀ : State := { s with inbox := rest }
    (s.fault = true →
      step s = .next
        { s₀ with
          responses := s.responses ++ [{ status := .faulted, data := s.fcause.setWidth 64 }] }) ∧
    (s.fault = false →
      ((∀ op : Opcode, ¬ op.spelledBy w) → step s = .next (s₀.raised .illegalCommand)) ∧
      (∀ op : Opcode, op.spelledBy w →
        let badReg := s.cfg.nreg ≤ (rdField w).toNat ∨
          (op.usesRS = true ∧ s.cfg.nreg ≤ (rsField w).toNat)
        let badIdx := op.usesIDX = true ∧ s.cfg.d ≤ (idxField w).toNat
        let zeroDivisor := op.divides = true ∧ kField w = 0
        (badReg → step s = .next (s₀.raised .illegalCommand)) ∧
        (¬ badReg → badIdx → step s = .next (s₀.raised .indexRange)) ∧
        (¬ badReg → ¬ badIdx → zeroDivisor → step s = .next (s₀.raised .illegalArgument)) ∧
        (¬ badReg → ¬ badIdx → ¬ zeroDivisor →
          ∃ (i : Instr) (t : State), decode w = .ok i ∧ i.opcode = op ∧
            step s = exec i s₀ ∧ exec i s₀ = .next t ∧
            ((t.fault = false ∧ t.fcause = s.fcause ∧
                ∃ data, t.responses = s.responses ++ [{ status := .ok, data := data }]) ∨
             (op = .sub ∧ t.fault = true ∧ t.fcause = 3 ∧
                t.responses = s.responses ++ [{ status := .negativeResult, data := 0 }])))))

/-- R110: the exact condition of each fault cause, its report in the response of the command that
caused it, and the registers it changes. -/
def Obligations.FaultsAreRaisedExactlyWhenListed : Prop :=
  ∀ (s : State) (w : CommandWord) (rest : List Input) (t : State),
    s.Running → s.inbox = .command w :: rest → step s = .next t →
    let badReg := fun op : Opcode => s.cfg.nreg ≤ (rdField w).toNat ∨
      (op.usesRS = true ∧ s.cfg.nreg ≤ (rsField w).toNat)
    (t.fcause = 1 ↔
      (∀ op : Opcode, ¬ op.spelledBy w) ∨ ∃ op : Opcode, op.spelledBy w ∧ badReg op) ∧
    (t.fcause = 2 ↔
      ∃ op : Opcode, op.spelledBy w ∧ ¬ badReg op ∧
        (op = .recip ∨ op = .divo ∨ op = .divs) ∧ kField w = 0) ∧
    (t.fcause = 3 ↔
      Opcode.sub.spelledBy w ∧ ¬ badReg .sub ∧
        s.num (rdField w).toNat < s.num (rsField w).toNat) ∧
    (t.fcause = 4 ↔
      ∃ op : Opcode, op.spelledBy w ∧ ¬ badReg op ∧ (op = .rdlimb ∨ op = .wrlimb) ∧
        s.cfg.d ≤ (idxField w).toNat) ∧
    (t.fault = true ↔ t.fcause ≠ 0) ∧
    (t.fault = true →
      ∃ r : Response, t.responses = s.responses ++ [r] ∧ r.status.code = t.fcause ∧ r.data = 0) ∧
    (t.fault = true → t.fcause ≠ 3 → t.regs = s.regs) ∧
    (t.fcause = 3 → ∀ r, r ≠ (rdField w).toNat → t.reg r = s.reg r)

/-- R112: raising a fault sets `FAULT`, records the cause, answers with it, and saves nothing else; the
registers stand, but for the destination of a `SUB` that went negative; `fault` rises. -/
def Obligations.RaisingAFaultRecordsOnlyItsCause : Prop :=
  ∀ (s : State) (rest : List Input) (t : State) (w : CommandWord),
    s.inbox = .command w :: rest → s.fault = false → step s = .next t → t.fault = true →
    ∃ c : Cause,
      t.fcause = c.code ∧ c.status.code = c.code ∧
      t.responses = s.responses ++ [{ status := c.status, data := 0 }] ∧
      t.faultOutput = true ∧ t.inbox = rest ∧ t.cfg = s.cfg ∧
      (c ≠ .negativeResult → t.regs = s.regs ∧ t.freeTick = s.freeTick) ∧
      (c = .negativeResult → ∀ r, r ≠ (rdField w).toNat → t.reg r = s.reg r)

/-- R113 and R111: while `FAULT = 1` every command, whatever its word, is answered `FAULTED` with
`FCAUSE` and changes nothing; only reset leaves the fault state, and it clears every register. -/
def Obligations.FaultStateRefusesEveryCommandUntilReset : Prop :=
  (∀ (s : State) (w : CommandWord) (rest : List Input),
    s.fault = true → s.inbox = .command w :: rest →
    step s = .next
      { s with
        inbox := rest
        responses := s.responses ++ [{ status := .faulted, data := s.fcause.setWidth 64 }] }) ∧
  (∀ (s t : State), s.fault = true → step s = .next t → t.fault = false →
    (∃ rest, s.inbox = .reset :: rest) ∧
    t.regs = List.replicate s.cfg.nreg (BigNum.zero s.cfg.d))

/-- R118: no input but reset ends the fault state, and `FCAUSE` keeps the first cause; reset loses the
contents of every register. -/
def Obligations.FaultCauseKeepsTheFirstUntilReset : Prop :=
  ∀ (s t : State), s.fault = true → step s = .next t →
    ((∀ rest, s.inbox ≠ .reset :: rest) ∧
      t.fault = true ∧ t.fcause = s.fcause ∧ t.regs = s.regs) ∨
    ((∃ rest, s.inbox = .reset :: rest) ∧
      t.fault = false ∧ t.fcause = 0 ∧
      t.regs = List.replicate s.cfg.nreg (BigNum.zero s.cfg.d))

/-- R29: the value of every part of the state after reset, for the state the model calls reset and
for the state the reset input leaves. -/
def Obligations.ResetLeavesEveryRegisterZero : Prop :=
  let isReset := fun t : State =>
    (∀ r, r < t.cfg.nreg →
      (∀ i, i < t.cfg.d → t.limbRead r i = 0) ∧
      (t.reg r).lzc = t.cfg.d ∧ (t.reg r).isZero t.cfg.d = true) ∧
    t.regs.length = t.cfg.nreg ∧ (∀ b ∈ t.regs, b.dig.length = t.cfg.d) ∧
    t.fault = false ∧ t.fcause = 0
  (∀ cfg : Config, isReset (State.resetOf cfg)) ∧ isReset State.reset ∧
  (∀ (s : State) (rest : List Input), s.inbox = .reset :: rest →
    ∃ t, step s = .next t ∧ isReset t)

/-- R140 and R126 (log entries 1, 7 and 8): reset keeps the build and the inputs behind it and drops
responses not yet taken; a command in progress when it is asserted is abandoned: with the reset right
behind it, a command leaves no trace. -/
def Obligations.ResetAbandonsTheCommandBeforeIt : Prop :=
  (∀ (s : State) (rest : List Input), s.inbox = .reset :: rest →
    ∃ t, step s = .next t ∧ t.cfg = s.cfg ∧ t.inbox = rest ∧ t.responses = []) ∧
  (∀ (s : State) (w : CommandWord) (rest : List Input) (t : State),
    s.inbox = .command w :: .reset :: rest → step s = .next t →
    ∃ u u' : State,
      step t = .next u ∧ step { s with inbox := .reset :: rest } = .next u' ∧
      u.responses = [] ∧ { u with freeTick := 0 } = { u' with freeTick := 0 })

/-- R115 ("No rule can observe the difference"): what a `NEGATIVE_RESULT` leaves in the destination is
never seen: states that differ only in the registers of a faulted block, or in the free values still
to come, stay so, with the same responses. -/
def Obligations.UnspecifiedRegisterIsNeverObserved : Prop :=
  ∀ (s t s' t' : State), s.Alike t → step s = .next s' → step t = .next t' → s'.Alike t'

/-- 60_exceptions.md, R110 and R114: every command form that names a register the build does not have is
`ILLEGAL_COMMAND` and changes no register, before a zero divisor or an index out of range is looked
at; in the fault state every command is answered `FAULTED`. -/
def Obligations.CommandsNamingNoRegisterAreIllegal : Prop :=
  (∀ (s : State) (rd : Nat) (k : Scalar) (idx : Nat), s.fault = false → s.cfg.nreg ≤ rd →
    ∀ i ∈ [Instr.setz rd, .isz rd, .rdlzc rd, .recip rd k, .scale rd k, .divs rd k,
        .rdlimb rd idx, .wrlimb rd idx k],
      exec i s = .next (s.raised .illegalCommand)) ∧
  (∀ (s : State) (rd rs : Nat) (k : Scalar), s.fault = false →
    s.cfg.nreg ≤ rd ∨ s.cfg.nreg ≤ rs →
    ∀ i ∈ [Instr.divo rd rs k, .add rd rs, .sub rd rs, .copy rd rs],
      exec i s = .next (s.raised .illegalCommand)) ∧
  (∀ (s : State) (i : Instr), s.fault = true →
    exec i s = .next
      { s with
        responses := s.responses ++ [{ status := .faulted, data := s.fcause.setWidth 64 }] })

/-! ## The invariant -/

/-- The invariant holds after reset, in every build R9 allows and in the reference build. -/
def Obligations.InvariantHoldsAfterReset : Prop :=
  (∀ cfg : Config, cfg.legal = true → (State.resetOf cfg).Inv) ∧ State.reset.Inv

/-- Every step keeps the invariant: exact counts (R23), the shape of the limb space (R21, R32), the
width of the counts (R22), and the fault status (R26). -/
def Obligations.EveryStepKeepsTheInvariant : Prop :=
  ∀ s t : State, s.Inv → step s = .next t → t.Inv

/-- R61 and R23: after a command that ends OK every count is exact, as after reset, and no command
changes the digits or the count of a register other than its destination. -/
def Obligations.CountsAreExactAndOnlyTheDestinationChanges : Prop :=
  (∀ (cfg : Config) (r : Nat), r < cfg.nreg → (State.resetOf cfg).tracked r) ∧
  (∀ (s : State) (w : CommandWord) (rest : List Input) (t : State),
    s.Running → s.inbox = .command w :: rest → step s = .next t →
    (t.fault = false → ∀ r, r < t.cfg.nreg → t.tracked r) ∧
    (∀ r, r ≠ (rdField w).toNat → t.reg r = s.reg r))

/-- No input changes the build (log entry 1). -/
def Obligations.NoStepChangesTheBuild : Prop :=
  ∀ s t : State, step s = .next t → t.cfg = s.cfg

/-! ## The leading-zero count and the value of a register -/

/-- R60: the count is the least index of a non-zero digit, or the length when there is none; it is the
length exactly when the number is zero, and 0 exactly when the most significant digit is not 0. -/
def Obligations.LeadingZerosIsTheFirstNonzeroIndex : Prop :=
  ∀ a : List Digit,
    (∀ j, j < a.length →
      (leadingZeros a = j ↔ a[j]?.getD 0 ≠ 0 ∧ ∀ i, i < j → a[i]?.getD 0 = 0)) ∧
    (leadingZeros a = a.length ↔ ∀ i, i < a.length → a[i]?.getD 0 = 0) ∧
    (leadingZeros a = a.length ↔ numerator a = 0) ∧
    (1 ≤ a.length → (leadingZeros a = 0 ↔ a[0]?.getD 0 ≠ 0))

/-- What the count says of the numerator (40_zero_tracker.md, the law under R60). -/
def Obligations.CountBoundsTheNumerator : Prop :=
  ∀ (a : List Digit) (j : Nat), j < a.length →
    (leadingZeros a = j ↔
      base ^ (a.length - 1 - j) ≤ numerator a ∧ numerator a < base ^ (a.length - j))

/-- R11 and R21: the numerator is below `B^D` and determines the digits, so a statement of a
register's numerator is a statement of all its digits. -/
def Obligations.NumeratorDeterminesTheDigits : Prop :=
  (∀ a : List Digit, numerator a < base ^ a.length) ∧
  (∀ a b : List Digit, a.length = b.length → numerator a = numerator b → a = b)

/-- `SETZ` (R62). -/
def Obligations.SetzMakesTheRegisterZero : Prop :=
  ∀ (s : State) (rd : Nat), s.Running → rd < s.cfg.nreg →
    ∃ t, exec (.setz rd) s = .next t ∧ s.OnlyWrote rd t ∧
      (∀ i, i < s.cfg.d → t.limbRead rd i = 0) ∧ (t.reg rd).dig.length = s.cfg.d ∧
      (t.reg rd).lzc = s.cfg.d ∧ (t.reg rd).isZero s.cfg.d = true

/-- `ISZ` (R63): the answer, exactly when it is 1, and that nothing else changes. -/
def Obligations.IszAnswersWhetherTheRegisterIsZero : Prop :=
  ∀ (s : State) (rd : Nat), s.Running → rd < s.cfg.nreg →
    exec (.isz rd) s = .next
      { s with
        responses := s.responses ++
          [{ status := .ok, data := if (s.reg rd).lzc = s.cfg.d then 1 else 0 }] } ∧
    ((s.reg rd).lzc = s.cfg.d ↔ s.num rd = 0)

/-- `RDLZC` (R64): the answer is the count, in `0 .. D`, and nothing else changes. -/
def Obligations.RdlzcAnswersTheCount : Prop :=
  ∀ (s : State) (rd : Nat), s.Running → rd < s.cfg.nreg →
    ∃ data : Digit,
      exec (.rdlzc rd) s = .next
        { s with responses := s.responses ++ [{ status := .ok, data := data }] } ∧
      data.toNat = (s.reg rd).lzc ∧ data.toNat ≤ s.cfg.d ∧
      (data.toNat = s.cfg.d ↔ (s.reg rd).isZero s.cfg.d = true)

/-! ## Division -/

/-- R70: one division step fits the 128-bit intermediate, its quotient is a digit, and its remainder
is below the divisor. -/
def Obligations.DivisionStepFitsItsWidths : Prop :=
  ∀ (rem d : Nat) (a : Digit), 1 ≤ d → d ≤ base - 1 → rem < d →
    rem * base + a.toNat ≤ d * base - 1 ∧ rem * base + a.toNat < 2 ^ 128 ∧
    (rem * base + a.toNat) / d ≤ base - 1 ∧
    (divStep rem a d).1.toNat = (rem * base + a.toNat) / d ∧
    (divStep rem a d).2 = (rem * base + a.toNat) % d ∧ (divStep rem a d).2 < d

/-- `RECIP` (R71): the digit loop, isZero after it, the case `x = 1`, and the fault at `x = 0`. -/
def Obligations.RecipFollowsLongDivision : Prop :=
  ∀ (s : State) (rd : Nat) (x : Scalar), s.Running → rd < s.cfg.nreg →
    (x = 0 → exec (.recip rd x) s = .next (s.raised .illegalArgument)) ∧
    (x ≠ 0 →
      ∃ (t : State) (rem : Nat → Nat),
        exec (.recip rd x) s = .next t ∧ s.OnlyWrote rd t ∧ rem 0 = 1 ∧
        (∀ i, i < s.cfg.d →
          (t.limbRead rd i).toNat = rem i * base / x.toNat % base ∧
          rem (i + 1) = rem i * base % x.toNat) ∧
        (t.reg rd).dig.length = s.cfg.d ∧ t.tracked rd ∧
        (2 ≤ x.toNat → (t.reg rd).isZero s.cfg.d = false) ∧
        (x = 1 → (t.reg rd).isZero s.cfg.d = true ∧ ∀ i, i < s.cfg.d → t.limbRead rd i = 0))

/-- The law of `RECIP` (41_scalar_divide.md, the law and corner cases under R71): `N = floor(B^D / x)`
and count 0 for `x >= 2`, also above `2^63`, and zero for `x = 1`, whatever the register held. -/
def Obligations.RecipIsTheTruncatedReciprocal : Prop :=
  ∀ (s : State) (rd : Nat) (x : Scalar), s.Running → rd < s.cfg.nreg → x ≠ 0 →
    ∃ t, exec (.recip rd x) s = .next t ∧ s.OnlyWrote rd t ∧
      (2 ≤ x.toNat → t.num rd = base ^ s.cfg.d / x.toNat ∧ (t.reg rd).lzc = 0) ∧
      (x.toNat = 1 → t.num rd = 0 ∧ (t.reg rd).lzc = s.cfg.d)

/-- `DIVO` (R72): the zeros before the source's count, the digit loop from there, the source kept, and
the fault at `d = 0`. -/
def Obligations.DivoFollowsLongDivision : Prop :=
  ∀ (s : State) (rd rs : Nat) (d : Scalar), s.Running → rd < s.cfg.nreg → rs < s.cfg.nreg →
    (d = 0 → exec (.divo rd rs d) s = .next (s.raised .illegalArgument)) ∧
    (d ≠ 0 →
      ∃ (t : State) (rem : Nat → Nat),
        exec (.divo rd rs d) s = .next t ∧ s.OnlyWrote rd t ∧
        (∀ i, i < (s.reg rs).lzc → t.limbRead rd i = 0) ∧ rem (s.reg rs).lzc = 0 ∧
        (∀ i, (s.reg rs).lzc ≤ i → i < s.cfg.d →
          (t.limbRead rd i).toNat = (rem i * base + (s.limbRead rs i).toNat) / d.toNat ∧
          rem (i + 1) = (rem i * base + (s.limbRead rs i).toNat) % d.toNat) ∧
        (t.reg rd).dig.length = s.cfg.d ∧ t.tracked rd ∧
        ((t.reg rd).isZero s.cfg.d = true ↔ s.num rs < d.toNat))

/-- `DIVS` (R73): the digits before the count untouched, the digit loop from there, and the fault at
`d = 0`. -/
def Obligations.DivsFollowsLongDivision : Prop :=
  ∀ (s : State) (rd : Nat) (d : Scalar), s.Running → rd < s.cfg.nreg →
    (d = 0 → exec (.divs rd d) s = .next (s.raised .illegalArgument)) ∧
    (d ≠ 0 →
      ∃ (t : State) (rem : Nat → Nat),
        exec (.divs rd d) s = .next t ∧ s.OnlyWrote rd t ∧
        (∀ i, i < (s.reg rd).lzc → t.limbRead rd i = s.limbRead rd i) ∧ rem (s.reg rd).lzc = 0 ∧
        (∀ i, (s.reg rd).lzc ≤ i → i < s.cfg.d →
          (t.limbRead rd i).toNat = (rem i * base + (s.limbRead rd i).toNat) / d.toNat ∧
          rem (i + 1) = (rem i * base + (s.limbRead rd i).toNat) % d.toNat) ∧
        (t.reg rd).dig.length = s.cfg.d ∧ t.tracked rd ∧
        ((t.reg rd).isZero s.cfg.d = true ↔ s.num rd < d.toNat))

/-- The law of the family (41_scalar_divide.md, section 3): both divisions take the floor of the exact
quotient of the numerator, and the count never goes down. -/
def Obligations.DivisionTakesTheFloor : Prop :=
  (∀ (s : State) (rd rs : Nat) (d : Scalar), s.Running → rd < s.cfg.nreg → rs < s.cfg.nreg →
    d ≠ 0 →
    ∃ t, exec (.divo rd rs d) s = .next t ∧ s.OnlyWrote rd t ∧
      t.num rd = s.num rs / d.toNat ∧ (s.reg rs).lzc ≤ (t.reg rd).lzc) ∧
  (∀ (s : State) (rd : Nat) (d : Scalar), s.Running → rd < s.cfg.nreg → d ≠ 0 →
    ∃ t, exec (.divs rd d) s = .next t ∧ s.OnlyWrote rd t ∧
      t.num rd = s.num rd / d.toNat ∧ (s.reg rd).lzc ≤ (t.reg rd).lzc)

/-- The count after a division (41_scalar_divide.md, corner cases under R72 and R73): it stays when
the leading digit is at least the divisor, else moves by one, or to `D` from `D-1`. -/
def Obligations.DivisionMovesTheCountByAtMostOne : Prop :=
  ∀ (s : State) (rd rs : Nat) (d : Scalar) (t : State), s.Running → rd < s.cfg.nreg →
    rs < s.cfg.nreg → d ≠ 0 → exec (.divo rd rs d) s = .next t →
    let c := (s.reg rs).lzc
    (c = s.cfg.d → (t.reg rd).lzc = s.cfg.d) ∧
    (c < s.cfg.d → d.toNat ≤ (s.limbRead rs c).toNat → (t.reg rd).lzc = c) ∧
    (c < s.cfg.d → (s.limbRead rs c).toNat < d.toNat → (t.reg rd).lzc = c + 1)

/-- `DIVO rd, rd, d` has the same effect as `DIVS rd, d` (R58, R73, R144 e): the same outcome from every
state, its faults among them. -/
def Obligations.DivoOntoItselfIsDivs : Prop :=
  ∀ (s : State) (rd : Nat) (d : Scalar), s.Inv → exec (.divo rd rd d) s = exec (.divs rd d) s

/-- 41_scalar_divide.md section 3: two divisions in a row are one by the product, however wide. -/
def Obligations.TwoDivisionsAreOneByTheProduct : Prop :=
  ∀ (s : State) (rd : Nat) (a b : Scalar), s.Running → rd < s.cfg.nreg → a ≠ 0 → b ≠ 0 →
    ∃ t u, exec (.divs rd a) s = .next t ∧ exec (.divs rd b) t = .next u ∧
      u.num rd = s.num rd / (a.toNat * b.toNat)

/-- 41_scalar_divide.md section 3: after `DIVO rd, rs, d` the command `SUB rs, rd` cannot fault; with
one register for both it clears it. -/
def Obligations.QuotientCanBeSubtracted : Prop :=
  ∀ (s : State) (rd rs : Nat) (d : Scalar), s.Running → rd < s.cfg.nreg → rs < s.cfg.nreg → d ≠ 0 →
    ∃ t u, exec (.divo rd rs d) s = .next t ∧ exec (.sub rs rd) t = .next u ∧ u.fault = false ∧
      (rd ≠ rs → u.num rs = s.num rs - s.num rs / d.toNat) ∧ (rd = rs → u.num rs = 0)

/-- 41_scalar_divide.md, corner cases under R73: repeated division by `d >= 2` reaches exactly zero,
within one command per bit of the number. -/
def Obligations.RepeatedDivisionReachesZero : Prop :=
  ∀ (s : State) (rd : Nat) (d : Scalar), s.Running → rd < s.cfg.nreg → 2 ≤ d.toNat →
    ∃ n t, n ≤ 64 * s.cfg.d ∧ execTimes (.divs rd d) n s = .next t ∧ t.fault = false ∧
      t.num rd = 0 ∧ (t.reg rd).lzc = s.cfg.d

/-- R34 and 40_zero_tracker.md R61: the digits a division skips are zero, so it computes what division
over all `D` digits computes. -/
def Obligations.SkippingKnownZerosChangesNothing : Prop :=
  ∀ (s : State) (r : Nat) (d : Scalar), s.Running → r < s.cfg.nreg → d ≠ 0 →
    let b := s.reg r
    List.replicate b.lzc 0#64 ++ divDigits d.toNat 0 (b.dig.drop b.lzc) = divDigits d.toNat 0 b.dig ∧
    b.dig.take b.lzc ++ divDigits d.toNat 0 (b.dig.drop b.lzc) = divDigits d.toNat 0 b.dig

/-! ## Multiplication by a scalar -/

/-- `SCALE` (R80): the digit loop, the carry out of digit 0 dropped without a signal, for every `k`. -/
def Obligations.ScaleFollowsTheCarryLoop : Prop :=
  ∀ (s : State) (rd : Nat) (k : Scalar), s.Running → rd < s.cfg.nreg →
    ∃ (t : State) (carry : Nat → Nat),
      exec (.scale rd k) s = .next t ∧ s.OnlyWrote rd t ∧ carry s.cfg.d = 0 ∧
      (∀ i, i < s.cfg.d →
        (t.limbRead rd i).toNat =
          (carry (i + 1) + k.toNat * (s.limbRead rd i).toNat) % base ∧
        carry i = (carry (i + 1) + k.toNat * (s.limbRead rd i).toNat) / base) ∧
      (t.reg rd).dig.length = s.cfg.d ∧ t.tracked rd

/-- The law of `SCALE` (42_scalar_multiply.md, R81): the product modulo `B^D`, and twice scaling is
scaling by the product modulo `B^D`. -/
def Obligations.ScaleMultipliesModuloTheRange : Prop :=
  (∀ (s : State) (rd : Nat) (k : Scalar), s.Running → rd < s.cfg.nreg →
    ∃ t, exec (.scale rd k) s = .next t ∧ s.OnlyWrote rd t ∧
      t.num rd = k.toNat * s.num rd % base ^ s.cfg.d ∧
      (scaleDigits k.toNat (s.reg rd).dig).2 = k.toNat * s.num rd / base ^ s.cfg.d) ∧
  (∀ (s : State) (rd : Nat) (a b : Scalar), s.Running → rd < s.cfg.nreg →
    ∃ t u, exec (.scale rd a) s = .next t ∧ exec (.scale rd b) t = .next u ∧
      u.num rd = a.toNat * b.toNat * s.num rd % base ^ s.cfg.d)

/-- The width of the intermediate of `SCALE` (42_scalar_multiply.md, R82): no 64-bit `k` overflows 128
bits. -/
def Obligations.ScaleIntermediateFitsItsWidth : Prop :=
  ∀ (k : Scalar) (a : Digit) (as : List Digit),
    (scaleDigits k.toNat as).2 ≤ k.toNat - 1 ∧
    (scaleDigits k.toNat as).2 + k.toNat * a.toNat < 2 ^ 128 ∧
    (1 ≤ k.toNat → (scaleDigits k.toNat as).2 + k.toNat * a.toNat ≤ k.toNat * base - 1)

/-! ## Addition and subtraction -/

/-- `ADD` (R85): the digit loop, the carry out of digit 0 dropped without a signal, the two operands
possibly one register. -/
def Obligations.AddFollowsTheCarryLoop : Prop :=
  ∀ (s : State) (rd rs : Nat), s.Running → rd < s.cfg.nreg → rs < s.cfg.nreg →
    ∃ (t : State) (carry : Nat → Nat),
      exec (.add rd rs) s = .next t ∧ s.OnlyWrote rd t ∧ carry s.cfg.d = 0 ∧
      (∀ i, i < s.cfg.d →
        (t.limbRead rd i).toNat =
          (carry (i + 1) + (s.limbRead rd i).toNat + (s.limbRead rs i).toNat) % base ∧
        carry i = (carry (i + 1) + (s.limbRead rd i).toNat + (s.limbRead rs i).toNat) / base ∧
        carry i ≤ 1) ∧
      (t.reg rd).dig.length = s.cfg.d ∧ t.tracked rd

/-- The law of `ADD` (43_add_sub.md, R86): the sum modulo `B^D`. -/
def Obligations.AddSumsModuloTheRange : Prop :=
  ∀ (s : State) (rd rs : Nat), s.Running → rd < s.cfg.nreg → rs < s.cfg.nreg →
    ∃ t, exec (.add rd rs) s = .next t ∧ s.OnlyWrote rd t ∧
      t.num rd = (s.num rd + s.num rs) % base ^ s.cfg.d ∧
      (addDigits 0 (s.reg rd).dig (s.reg rs).dig).2 = (s.num rd + s.num rs) / base ^ s.cfg.d

/-- The count after `ADD` (43_add_sub.md, R86): with `m` the smaller count, at least `m - 1` and no
carry out for `m >= 1`, digit `m - 1` then 0 or 1, and at most `m` when no carry leaves digit 0. -/
def Obligations.AddLowersTheCountByAtMostOne : Prop :=
  ∀ (s : State) (rd rs : Nat) (t : State), s.Running → rd < s.cfg.nreg → rs < s.cfg.nreg →
    exec (.add rd rs) s = .next t →
    let m := min (s.reg rd).lzc (s.reg rs).lzc
    (1 ≤ m →
      s.num rd + s.num rs < base ^ s.cfg.d ∧ m - 1 ≤ (t.reg rd).lzc ∧
      (t.limbRead rd (m - 1)).toNat ≤ 1) ∧
    (s.num rd + s.num rs < base ^ s.cfg.d → (t.reg rd).lzc ≤ m)

/-- `SUB` (R87): the digit loop with the initial carry 1 and the complement of the subtrahend; when the
last carry is 0, which is when the subtrahend is larger, the fault `NEGATIVE_RESULT`, with every
register but the destination kept, whose digits and count are left open; else the difference, zero
exactly when the operands were equal. -/
def Obligations.SubFollowsTheBorrowLoop : Prop :=
  ∀ (s : State) (rd rs : Nat), s.Running → rd < s.cfg.nreg → rs < s.cfg.nreg →
    ∃ (t : State) (carry : Nat → Nat),
      exec (.sub rd rs) s = .next t ∧ carry s.cfg.d = 1 ∧
      (∀ i, i < s.cfg.d →
        carry i =
          (carry (i + 1) + (s.limbRead rd i).toNat + (base - 1 - (s.limbRead rs i).toNat)) / base ∧
        carry i ≤ 1) ∧
      (carry 0 = 0 ↔ s.num rd < s.num rs) ∧
      (carry 0 = 0 →
        t.fault = true ∧ t.fcause = 3 ∧
        t.responses = s.responses ++ [{ status := .negativeResult, data := 0 }] ∧
        (∀ r, r ≠ rd → t.reg r = s.reg r) ∧ t.regs.length = s.regs.length ∧
        t.cfg = s.cfg ∧ t.inbox = s.inbox) ∧
      (carry 0 ≠ 0 →
        s.OnlyWrote rd t ∧
        (∀ i, i < s.cfg.d →
          (t.limbRead rd i).toNat =
            (carry (i + 1) + (s.limbRead rd i).toNat + (base - 1 - (s.limbRead rs i).toNat)) %
              base) ∧
        (t.reg rd).dig.length = s.cfg.d ∧ t.tracked rd ∧
        ((t.reg rd).isZero s.cfg.d = true ↔ s.num rd = s.num rs))

/-- The law of `SUB` (43_add_sub.md, R88): the exact difference when it is not negative, its count not
below the old one, zero exactly when the operands were equal. -/
def Obligations.SubSubtractsWhenNotNegative : Prop :=
  ∀ (s : State) (rd rs : Nat), s.Running → rd < s.cfg.nreg → rs < s.cfg.nreg →
    s.num rs ≤ s.num rd →
    ∃ t, exec (.sub rd rs) s = .next t ∧ s.OnlyWrote rd t ∧ t.fault = false ∧
      t.num rd = s.num rd - s.num rs ∧ (s.reg rd).lzc ≤ (t.reg rd).lzc ∧
      ((t.reg rd).isZero s.cfg.d = true ↔ s.num rd = s.num rs)

/-- `NEGATIVE_RESULT` (43_add_sub.md, R88, and 60_exceptions.md, R115): raised when the subtrahend is
larger; every register but the destination keeps its value. A source with the smaller count always
raises it. -/
def Obligations.SubOfALargerNumberFaults : Prop :=
  ∀ (s : State) (rd rs : Nat), s.Running → rd < s.cfg.nreg → rs < s.cfg.nreg →
    ((s.reg rs).lzc < (s.reg rd).lzc → s.num rd < s.num rs) ∧
    (s.num rd < s.num rs →
      ∃ t, exec (.sub rd rs) s = .next t ∧ t.fault = true ∧ t.fcause = 3 ∧
        t.responses = s.responses ++ [{ status := .negativeResult, data := 0 }] ∧
        (∀ r, r ≠ rd → t.reg r = s.reg r) ∧ t.regs.length = s.regs.length ∧
        t.cfg = s.cfg ∧ t.inbox = s.inbox)

/-- `(a + b) - b = a` exactly when the sum has no carry out; with a carry out the `SUB` faults
(43_add_sub.md, R86); with one register for both operands the `SUB` clears it. -/
def Obligations.AddThenSubRestoresOrFaults : Prop :=
  ∀ (s : State) (rd rs : Nat), s.Running → rd < s.cfg.nreg → rs < s.cfg.nreg →
    ∃ t u, exec (.add rd rs) s = .next t ∧ exec (.sub rd rs) t = .next u ∧
      (rd ≠ rs → s.num rd + s.num rs < base ^ s.cfg.d →
        u.fault = false ∧ u.reg rd = s.reg rd) ∧
      (rd ≠ rs → base ^ s.cfg.d ≤ s.num rd + s.num rs → u.fault = true ∧ u.fcause = 3) ∧
      (rd = rs → u.fault = false ∧ u.num rd = 0)

/-- R144 e: `ADD r, r` doubles and `SUB r, r` clears: the same outcomes as `SCALE r, 2` and `SETZ r` from
every state, the faults among them. -/
def Obligations.AddAndSubOfOneRegister : Prop :=
  ∀ (s : State) (r : Nat), s.Inv →
    exec (.add r r) s = exec (.scale r 2) s ∧ exec (.sub r r) s = exec (.setz r) s

/-! ## Data movement -/

/-- `COPY` (R95): all digits and the count; the other registers, the source among them, stand. -/
def Obligations.CopyCopiesDigitsAndCount : Prop :=
  ∀ (s : State) (rd rs : Nat), s.Running → rd < s.cfg.nreg → rs < s.cfg.nreg →
    ∃ t, exec (.copy rd rs) s = .next t ∧ s.OnlyWrote rd t ∧
      (∀ i, i < s.cfg.d → t.limbRead rd i = s.limbRead rs i) ∧
      (t.reg rd).dig.length = s.cfg.d ∧ (t.reg rd).lzc = (s.reg rs).lzc ∧
      (t.reg rd).isZero s.cfg.d = (s.reg rs).isZero s.cfg.d ∧ (rd = rs → t.regs = s.regs)

/-- `RDLIMB` (R97): the digit, or `INDEX_RANGE` with nothing changed; 0 before the count. -/
def Obligations.RdlimbAnswersTheDigit : Prop :=
  ∀ (s : State) (rd idx : Nat), s.Running → rd < s.cfg.nreg →
    (s.cfg.d ≤ idx → exec (.rdlimb rd idx) s = .next (s.raised .indexRange)) ∧
    (idx < s.cfg.d →
      exec (.rdlimb rd idx) s = .next
        { s with responses := s.responses ++ [{ status := .ok, data := s.limbRead rd idx }] } ∧
      (idx < (s.reg rd).lzc → s.limbRead rd idx = 0))

/-- `WRLIMB` (R98): one digit written, the count rescanned, the other digits kept; or `INDEX_RANGE` with
nothing changed. -/
def Obligations.WrlimbWritesOneDigit : Prop :=
  ∀ (s : State) (rd idx : Nat) (v : Digit), s.Running → rd < s.cfg.nreg →
    (s.cfg.d ≤ idx → exec (.wrlimb rd idx v) s = .next (s.raised .indexRange)) ∧
    (idx < s.cfg.d →
      ∃ t, exec (.wrlimb rd idx v) s = .next t ∧ s.OnlyWrote rd t ∧
        t.limbRead rd idx = v ∧ (∀ i, i ≠ idx → t.limbRead rd i = s.limbRead rd i) ∧
        (t.reg rd).dig.length = s.cfg.d ∧ t.tracked rd ∧
        (v ≠ 0 → idx < (s.reg rd).lzc → (t.reg rd).lzc = idx))
end

