-- ==== Sys2Proof/Laws/Decode.lean ====
section
/-! SUPPORT. The fields of a command word and the parts of the decoder: packing and reading fields,
operation codes, and the opcode map of R53 in terms of fields. -/

namespace Sys2Proof

/-! ## Packing and reading fields -/

/-- A word is its fields, packed (R50). -/
theorem packFields_of_fields (w : CommandWord) :
    packFields (kField w) (opcField w) (rdField w) (rsField w) (idxField w) = w := by
  unfold packFields kField opcField rdField rsField idxField
  rw [BitVec.extractLsb'_append_extractLsb'_eq_extractLsb' (by decide),
    BitVec.extractLsb'_append_extractLsb'_eq_extractLsb' (by decide),
    BitVec.extractLsb'_append_extractLsb'_eq_extractLsb' (by decide),
    BitVec.extractLsb'_append_extractLsb'_eq_extractLsb' (by decide)]
  exact BitVec.extractLsb'_eq_self

section
variable (k : Scalar) (opc rd rs : BitVec 4) (idx : BitVec 20)

@[simp] theorem kField_packFields : kField (packFields k opc rd rs idx) = k := by
  unfold kField packFields
  rw [BitVec.extractLsb'_append_eq_of_le (by decide), BitVec.extractLsb'_append_eq_of_le (by decide),
    BitVec.extractLsb'_append_eq_of_le (by decide), BitVec.extractLsb'_append_eq_of_le (by decide)]
  exact BitVec.extractLsb'_eq_self

@[simp] theorem opcField_packFields : opcField (packFields k opc rd rs idx) = opc := by
  unfold opcField packFields
  rw [BitVec.extractLsb'_append_eq_of_le (by decide), BitVec.extractLsb'_append_eq_of_le (by decide),
    BitVec.extractLsb'_append_eq_of_le (by decide),
    BitVec.extractLsb'_append_eq_of_add_le (by decide)]
  exact BitVec.extractLsb'_eq_self

@[simp] theorem rdField_packFields : rdField (packFields k opc rd rs idx) = rd := by
  unfold rdField packFields
  rw [BitVec.extractLsb'_append_eq_of_le (by decide), BitVec.extractLsb'_append_eq_of_le (by decide),
    BitVec.extractLsb'_append_eq_of_add_le (by decide)]
  exact BitVec.extractLsb'_eq_self

@[simp] theorem rsField_packFields : rsField (packFields k opc rd rs idx) = rs := by
  unfold rsField packFields
  rw [BitVec.extractLsb'_append_eq_of_le (by decide),
    BitVec.extractLsb'_append_eq_of_add_le (by decide)]
  exact BitVec.extractLsb'_eq_self

@[simp] theorem idxField_packFields : idxField (packFields k opc rd rs idx) = idx := by
  unfold idxField packFields
  rw [BitVec.extractLsb'_append_eq_of_add_le (by decide)]
  exact BitVec.extractLsb'_eq_self

end

theorem packFields_inj {k k' : Scalar} {opc opc' rd rd' rs rs' : BitVec 4} {idx idx' : BitVec 20} :
    packFields k opc rd rs idx = packFields k' opc' rd' rs' idx' ↔
      k = k' ∧ opc = opc' ∧ rd = rd' ∧ rs = rs' ∧ idx = idx' := by
  constructor
  · intro h
    have h1 := congrArg kField h
    have h2 := congrArg opcField h
    have h3 := congrArg rdField h
    have h4 := congrArg rsField h
    have h5 := congrArg idxField h
    simp only [kField_packFields, opcField_packFields, rdField_packFields, rsField_packFields,
      idxField_packFields] at h1 h2 h3 h4 h5
    exact ⟨h1, h2, h3, h4, h5⟩
  · rintro ⟨rfl, rfl, rfl, rfl, rfl⟩; rfl

/-- Masking works field by field. -/
theorem packFields_and (k k' : Scalar) (opc opc' rd rd' rs rs' : BitVec 4) (idx idx' : BitVec 20) :
    packFields k opc rd rs idx &&& packFields k' opc' rd' rs' idx' =
      packFields (k &&& k') (opc &&& opc') (rd &&& rd') (rs &&& rs') (idx &&& idx') := by
  unfold packFields
  rw [BitVec.and_append, BitVec.and_append, BitVec.and_append, BitVec.and_append]

/-! ## Operation codes and the opcode map -/

namespace Opcode

@[simp] theorem ofCode_code (op : Opcode) : ofCode op.code = some op := by cases op <;> decide

theorem code_of_ofCode {c : BitVec 4} {op : Opcode} (h : ofCode c = some op) : c = op.code := by
  have all : ∀ c : BitVec 4, ∀ o : Opcode, ofCode c = some o → c = o.code := by
    intro c o
    cases o <;> revert c <;> decide
  exact all c op h

theorem code_inj {op op' : Opcode} (h : op.code = op'.code) : op = op' := by
  have := congrArg ofCode h
  simpa using this

/-- The match word of R53 has the code in `OPC` and zero elsewhere. -/
theorem matchWord_eq (op : Opcode) : op.matchWord = packFields 0 op.code 0 0 0 := by
  cases op <;> decide

/-- The mask word of R53 covers `OPC` and every field the command does not use (R51). -/
theorem maskWord_eq (op : Opcode) :
    op.maskWord = packFields (if op.usesK then 0 else BitVec.allOnes 64) (BitVec.allOnes 4) 0
      (if op.usesRS then 0 else BitVec.allOnes 4) (if op.usesIDX then 0 else BitVec.allOnes 20) := by
  cases op <;> decide

end Opcode

theorem and_ite_allOnes_eq_zero {n : Nat} (v : BitVec n) (b : Bool) :
    (v &&& if b then 0 else BitVec.allOnes n) = 0 ↔ b = true ∨ v = 0 := by
  cases b <;> simp

theorem unusedFieldsZero_iff (op : Opcode) (w : CommandWord) :
    unusedFieldsZero op w = true ↔
      (op.usesRS = true ∨ rsField w = 0) ∧ (op.usesIDX = true ∨ idxField w = 0) ∧
      (op.usesK = true ∨ kField w = 0) := by
  simp [unusedFieldsZero, and_assoc]

/-- A row of R53 in terms of the fields of R51. -/
theorem spelledBy_iff (op : Opcode) (w : CommandWord) :
    op.spelledBy w ↔ opcField w = op.code ∧ unusedFieldsZero op w = true := by
  rw [unusedFieldsZero_iff, Opcode.spelledBy, Opcode.matchWord_eq, Opcode.maskWord_eq]
  conv_lhs => rw [← packFields_of_fields w]
  rw [packFields_and, packFields_inj, and_ite_allOnes_eq_zero, and_ite_allOnes_eq_zero,
    and_ite_allOnes_eq_zero, BitVec.and_allOnes]
  have h0 : rdField w &&& 0 = 0 := BitVec.and_zero
  tauto

/-! ## The decoder and the encoder -/

@[simp] theorem opcode_build (op : Opcode) (rd rs idx : Nat) (k : Scalar) :
    (op.build rd rs idx k).opcode = op := by cases op <;> rfl

/-- What the decoder answers OK to. -/
theorem decode_ok_iff (w : CommandWord) (i : Instr) :
    decode w = .ok i ↔ ∃ op : Opcode, op.spelledBy w ∧
      i = op.build (rdField w).toNat (rsField w).toNat (idxField w).toNat (kField w) := by
  unfold decode
  constructor
  · intro h
    split at h
    · simp at h
    · next op ho =>
      split at h
      · next hz =>
        exact ⟨op, (spelledBy_iff op w).2 ⟨Opcode.code_of_ofCode ho, hz⟩, by simpa using h.symm⟩
      · simp at h
  · rintro ⟨op, hs, rfl⟩
    obtain ⟨hc, hz⟩ := (spelledBy_iff op w).1 hs
    simp [hc, hz]

/-- The decoder answers an error exactly to the words no row spells (R54). -/
theorem decode_error_iff (w : CommandWord) :
    (∃ e, decode w = .error e) ↔ ∀ op : Opcode, ¬ op.spelledBy w := by
  constructor
  · rintro ⟨e, he⟩ op hs
    rw [(decode_ok_iff w _).2 ⟨op, hs, rfl⟩] at he
    simp at he
  · intro h
    cases hd : decode w with
    | error e => exact ⟨e, rfl⟩
    | ok i =>
      obtain ⟨op, hs, -⟩ := (decode_ok_iff w i).1 hd
      exact absurd hs (h op)

end Sys2Proof
end

