-- ==== Sys2Proof/Laws/Digits.lean ====
section
/-! SUPPORT. What the digit loops of Machine/Ops.lean compute, one specification lemma per loop, and
the numerator and the leading-zero count of a digit array. -/

namespace Sys2Proof.Machine

theorem base_pos : 0 < base := by decide

theorem digit_lt_base (a : Digit) : a.toNat < base := a.isLt

theorem base_pow_pos (n : Nat) : 0 < base ^ n := Nat.pow_pos base_pos

@[simp] theorem lowDigit_toNat (v : Nat) : (lowDigit v).toNat = v % base :=
  BitVec.toNat_ofNat v 64

theorem lowDigit_toNat_of_lt {v : Nat} (h : v < base) : (lowDigit v).toNat = v := by
  rw [lowDigit_toNat, Nat.mod_eq_of_lt h]

/-! ## The numerator -/

@[simp] theorem numerator_nil : numerator [] = 0 := rfl

@[simp] theorem numerator_cons (a : Digit) (as : List Digit) :
    numerator (a :: as) = a.toNat * base ^ as.length + numerator as := rfl

theorem numerator_lt (as : List Digit) : numerator as < base ^ as.length := by
  induction as with
  | nil => simp
  | cons a as ih =>
    have h : (a.toNat + 1) * base ^ as.length ≤ base * base ^ as.length :=
      Nat.mul_le_mul_right _ (digit_lt_base a)
    rw [numerator_cons, List.length_cons, Nat.pow_succ, Nat.mul_comm (base ^ as.length) base]
    calc a.toNat * base ^ as.length + numerator as
        < (a.toNat + 1) * base ^ as.length := by rw [Nat.add_mul]; omega
      _ ≤ base * base ^ as.length := h

theorem numerator_append (as bs : List Digit) :
    numerator (as ++ bs) = numerator as * base ^ bs.length + numerator bs := by
  induction as with
  | nil => simp
  | cons a as ih => simp [ih, Nat.pow_add]; ring

theorem numerator_replicate_zero (n : Nat) : numerator (List.replicate n 0#64) = 0 := by
  induction n with
  | zero => rfl
  | succ n ih => simp [List.replicate_succ, ih]

/-- Two numbers with equal low parts bounds: the high digits of a base-`B^n` split are unique. -/
theorem split_unique {q q' r r' m : Nat} (hr : r < m) (hr' : r' < m)
    (h : q * m + r = q' * m + r') : q = q' ∧ r = r' := by
  have hm : 0 < m := by omega
  have h1 : (q * m + r) / m = q := by
    rw [Nat.add_comm, Nat.add_mul_div_right _ _ hm, Nat.div_eq_of_lt hr, Nat.zero_add]
  have h2 : (q' * m + r') / m = q' := by
    rw [Nat.add_comm, Nat.add_mul_div_right _ _ hm, Nat.div_eq_of_lt hr', Nat.zero_add]
  have hq : q = q' := by rw [← h1, ← h2, h]
  subst hq
  exact ⟨rfl, by omega⟩

theorem numerator_complement (bs : List Digit) :
    numerator (bs.map (~~~ ·)) + numerator bs + 1 = base ^ bs.length := by
  induction bs with
  | nil => rfl
  | cons b bs ih =>
    have hb : (~~~b).toNat + b.toNat + 1 = base := by
      have := digit_lt_base b
      have hn : (~~~b).toNat = base - 1 - b.toNat := by
        rw [BitVec.toNat_not]; rfl
      omega
    simp only [List.map_cons, numerator_cons, List.length_map, List.length_cons, Nat.pow_succ]
    calc (~~~b).toNat * base ^ bs.length + numerator (bs.map (~~~ ·)) +
          (b.toNat * base ^ bs.length + numerator bs) + 1
        = ((~~~b).toNat + b.toNat) * base ^ bs.length +
            (numerator (bs.map (~~~ ·)) + numerator bs + 1) := by ring
      _ = ((~~~b).toNat + b.toNat + 1) * base ^ bs.length := by rw [ih]; ring
      _ = base ^ bs.length * base := by rw [hb]; ring

/-! ## Long division -/

@[simp] theorem divDigits_length (d rem : Nat) (as : List Digit) :
    (divDigits d rem as).length = as.length := by
  induction as generalizing rem with
  | nil => rfl
  | cons a as ih => simp [divDigits, ih]

theorem divStep_quotient_lt {rem d : Nat} (a : Digit) (h : rem < d) :
    (rem * base + a.toNat) / d < base := by
  have ha := digit_lt_base a
  rw [Nat.div_lt_iff_lt_mul (by omega)]
  calc rem * base + a.toNat < rem * base + base := by omega
    _ = (rem + 1) * base := by ring
    _ ≤ d * base := Nat.mul_le_mul_right _ h
    _ = base * d := Nat.mul_comm _ _

theorem divStep_fst {rem d : Nat} (a : Digit) (h : rem < d) :
    (divStep rem a d).1.toNat = (rem * base + a.toNat) / d :=
  lowDigit_toNat_of_lt (divStep_quotient_lt a h)

/-- Long division takes the floor of the quotient of the whole number. -/
theorem divDigits_numerator {d rem : Nat} (as : List Digit) (h : rem < d) :
    numerator (divDigits d rem as) = (rem * base ^ as.length + numerator as) / d := by
  induction as generalizing rem with
  | nil => simp [divDigits, Nat.div_eq_of_lt h]
  | cons a as ih =>
    have hd : 0 < d := by omega
    have hr : (rem * base + a.toNat) % d < d := Nat.mod_lt _ hd
    have key : rem * base ^ (as.length + 1) + (a.toNat * base ^ as.length + numerator as) =
        ((rem * base + a.toNat) % d * base ^ as.length + numerator as) +
          (rem * base + a.toNat) / d * base ^ as.length * d := by
      have := Nat.div_add_mod (rem * base + a.toNat) d
      calc rem * base ^ (as.length + 1) + (a.toNat * base ^ as.length + numerator as)
          = (rem * base + a.toNat) * base ^ as.length + numerator as := by ring
        _ = (d * ((rem * base + a.toNat) / d) + (rem * base + a.toNat) % d) * base ^ as.length +
              numerator as := by rw [this]
        _ = _ := by ring
    simp only [divDigits, numerator_cons, divDigits_length, List.length_cons]
    rw [divStep_fst a h, show (divStep rem a d).2 = (rem * base + a.toNat) % d from rfl, ih hr, key,
      Nat.add_mul_div_right _ _ hd, Nat.add_comm]

/-- The loop of a division as equations on its digits and remainders. -/
theorem divDigits_loop (d : Nat) (as : List Digit) (rem : Nat) (h : rem < d) :
    ∃ rems : Nat → Nat, rems 0 = rem ∧ ∀ i, i < as.length →
      ((divDigits d rem as)[i]?.getD 0).toNat =
        (rems i * base + (as[i]?.getD 0).toNat) / d ∧
      rems (i + 1) = (rems i * base + (as[i]?.getD 0).toNat) % d := by
  induction as generalizing rem with
  | nil => exact ⟨fun _ => rem, rfl, by simp⟩
  | cons a as ih =>
    have hr : (rem * base + a.toNat) % d < d := Nat.mod_lt _ (by omega)
    obtain ⟨f, hf0, hf⟩ := ih _ hr
    refine ⟨fun i => match i with | 0 => rem | j + 1 => f j, rfl, ?_⟩
    intro i hi
    cases i with
    | zero => exact ⟨by simpa [divDigits] using divStep_fst a h, by simpa using hf0⟩
    | succ j =>
      have hj : j < as.length := by simpa using hi
      simpa [divDigits, divStep] using hf j hj

theorem divDigits_zero (d n : Nat) : divDigits d 0 (List.replicate n 0#64) = List.replicate n 0#64 := by
  induction n with
  | zero => rfl
  | succ n ih => simp [List.replicate_succ, divDigits, divStep, ih, lowDigit]

/-- Digits known to be zero contribute nothing to a division that starts from remainder 0. -/
theorem divDigits_skip (d n : Nat) (as : List Digit) :
    divDigits d 0 (List.replicate n 0#64 ++ as) = List.replicate n 0#64 ++ divDigits d 0 as := by
  induction n with
  | zero => rfl
  | succ n ih => simp [List.replicate_succ, divDigits, divStep, ih, lowDigit]

/-- `RECIP` divides the implied leading 1 followed by zero digits. -/
theorem recipDigits_eq_divDigits (x n rem : Nat) :
    recipDigits x n rem = divDigits x rem (List.replicate n 0#64) := by
  induction n generalizing rem with
  | zero => rfl
  | succ n ih => simp [List.replicate_succ, recipDigits, divDigits, divStep, ih]

@[simp] theorem recipDigits_length (x n rem : Nat) : (recipDigits x n rem).length = n := by
  rw [recipDigits_eq_divDigits]; simp

theorem recipDigits_numerator {x rem : Nat} (n : Nat) (h : rem < x) :
    numerator (recipDigits x n rem) = rem * base ^ n / x := by
  rw [recipDigits_eq_divDigits, divDigits_numerator _ h]; simp [numerator_replicate_zero]

/-- The quotient `B` of `RECIP` by 1 does not fit a digit, and 0 is left of it. -/
theorem lowDigit_base : lowDigit base = 0#64 := by decide

theorem recipDigits_one_step (n : Nat) :
    recipDigits 1 (n + 1) 1 = lowDigit base :: recipDigits 1 n 0 := by
  simp only [recipDigits, Nat.one_mul, Nat.div_one, Nat.mod_one]

theorem recipDigits_one (n : Nat) : recipDigits 1 n 1 = List.replicate n 0#64 := by
  cases n with
  | zero => rfl
  | succ n =>
    rw [recipDigits_one_step, lowDigit_base, recipDigits_eq_divDigits, divDigits_zero,
      List.replicate_succ]

/-- The loop of `RECIP` as equations on its digits and remainders. -/
theorem recipDigits_loop (x n rem : Nat) :
    ∃ rems : Nat → Nat, rems 0 = rem ∧ ∀ i, i < n →
      ((recipDigits x n rem)[i]?.getD 0).toNat = rems i * base / x % base ∧
      rems (i + 1) = rems i * base % x := by
  induction n generalizing rem with
  | zero => exact ⟨fun _ => rem, rfl, by simp⟩
  | succ n ih =>
    obtain ⟨f, hf0, hf⟩ := ih (rem * base % x)
    refine ⟨fun i => match i with | 0 => rem | j + 1 => f j, rfl, ?_⟩
    intro i hi
    cases i with
    | zero => exact ⟨by simp [recipDigits], by simpa using hf0⟩
    | succ j => simpa [recipDigits] using hf j (by omega)

/-! ## Multiplication by a scalar -/

@[simp] theorem scaleDigits_length (k : Nat) (as : List Digit) :
    (scaleDigits k as).1.length = as.length := by
  induction as with
  | nil => rfl
  | cons a as ih => simp [scaleDigits, ih]

/-- Scaling loses nothing: digits and carry together are the whole product. -/
theorem scaleDigits_numerator (k : Nat) (as : List Digit) :
    (scaleDigits k as).2 * base ^ as.length + numerator (scaleDigits k as).1 =
      k * numerator as := by
  induction as with
  | nil => simp [scaleDigits]
  | cons a as ih =>
    have h := Nat.div_add_mod ((scaleDigits k as).2 + k * a.toNat) base
    simp only [scaleDigits, numerator_cons, scaleDigits_length, lowDigit_toNat, List.length_cons]
    generalize (scaleDigits k as).2 = c at *
    generalize numerator (scaleDigits k as).1 = m at *
    calc (c + k * a.toNat) / base * base ^ (as.length + 1) +
          ((c + k * a.toNat) % base * base ^ as.length + m)
        = (base * ((c + k * a.toNat) / base) + (c + k * a.toNat) % base) * base ^ as.length + m := by
          ring
      _ = c * base ^ as.length + m + k * (a.toNat * base ^ as.length) := by rw [h]; ring
      _ = _ := by rw [ih]; ring

/-- The loop of `SCALE` as equations on its digits and carries. -/
theorem scaleDigits_loop (k : Nat) (as : List Digit) :
    ∃ carry : Nat → Nat, carry as.length = 0 ∧ carry 0 = (scaleDigits k as).2 ∧
      ∀ i, i < as.length →
        ((scaleDigits k as).1[i]?.getD 0).toNat =
          (carry (i + 1) + k * (as[i]?.getD 0).toNat) % base ∧
        carry i = (carry (i + 1) + k * (as[i]?.getD 0).toNat) / base := by
  induction as with
  | nil => exact ⟨fun _ => 0, rfl, rfl, by simp⟩
  | cons a as ih =>
    obtain ⟨f, hfn, hf0, hf⟩ := ih
    refine ⟨fun i => match i with | 0 => (scaleDigits k (a :: as)).2 | j + 1 => f j, hfn, rfl, ?_⟩
    intro i hi
    cases i with
    | zero => simp [scaleDigits, hf0]
    | succ j => simpa [scaleDigits] using hf j (by simpa using hi)

/-! ## Addition and subtraction -/

@[simp] theorem addDigits_length (c : Nat) (as bs : List Digit) (h : as.length = bs.length) :
    (addDigits c as bs).1.length = as.length := by
  induction as generalizing bs with
  | nil => cases bs <;> rfl
  | cons a as ih =>
    cases bs with
    | nil => simp at h
    | cons b bs => simp [addDigits, ih bs (by simpa using h)]

/-- Addition loses nothing: digits and carry together are the whole sum. -/
theorem addDigits_numerator (c : Nat) (as bs : List Digit) (h : as.length = bs.length) :
    (addDigits c as bs).2 * base ^ as.length + numerator (addDigits c as bs).1 =
      c + numerator as + numerator bs := by
  induction as generalizing bs with
  | nil =>
    cases bs with
    | nil => simp [addDigits]
    | cons b bs => simp at h
  | cons a as ih =>
    cases bs with
    | nil => simp at h
    | cons b bs =>
      have hl : as.length = bs.length := by simpa using h
      have hd := Nat.div_add_mod ((addDigits c as bs).2 + a.toNat + b.toNat) base
      have ih := ih bs hl
      simp only [addDigits, numerator_cons, addDigits_length c as bs hl, lowDigit_toNat,
        List.length_cons, ← hl]
      generalize (addDigits c as bs).2 = e at *
      generalize numerator (addDigits c as bs).1 = m at *
      calc (e + a.toNat + b.toNat) / base * base ^ (as.length + 1) +
            ((e + a.toNat + b.toNat) % base * base ^ as.length + m)
          = (base * ((e + a.toNat + b.toNat) / base) + (e + a.toNat + b.toNat) % base) *
              base ^ as.length + m := by ring
        _ = e * base ^ as.length + m + (a.toNat * base ^ as.length + b.toNat * base ^ as.length) := by
            rw [hd]; ring
        _ = _ := by rw [ih]; ring

/-- The carry of an addition is one bit. -/
theorem addDigits_carry_le {c : Nat} (hc : c ≤ 1) (as bs : List Digit) :
    (addDigits c as bs).2 ≤ 1 := by
  induction as generalizing bs with
  | nil => cases bs <;> exact hc
  | cons a as ih =>
    cases bs with
    | nil => exact hc
    | cons b bs =>
      have := ih bs
      have ha := digit_lt_base a
      have hb := digit_lt_base b
      simp only [addDigits]
      rw [← Nat.lt_succ_iff, Nat.div_lt_iff_lt_mul base_pos]
      omega

/-- The loop of the adder as equations on its digits and carries. -/
theorem addDigits_loop {c : Nat} (hc : c ≤ 1) (as bs : List Digit) (h : as.length = bs.length) :
    ∃ carry : Nat → Nat, carry as.length = c ∧ carry 0 = (addDigits c as bs).2 ∧
      ∀ i, i < as.length →
        ((addDigits c as bs).1[i]?.getD 0).toNat =
          (carry (i + 1) + (as[i]?.getD 0).toNat + (bs[i]?.getD 0).toNat) % base ∧
        carry i = (carry (i + 1) + (as[i]?.getD 0).toNat + (bs[i]?.getD 0).toNat) / base ∧
        carry i ≤ 1 := by
  induction as generalizing bs with
  | nil =>
    cases bs with
    | nil => exact ⟨fun _ => c, rfl, rfl, by simp⟩
    | cons b bs => simp at h
  | cons a as ih =>
    cases bs with
    | nil => simp at h
    | cons b bs =>
      obtain ⟨f, hfn, hf0, hf⟩ := ih bs (by simpa using h)
      refine ⟨fun i => match i with | 0 => (addDigits c (a :: as) (b :: bs)).2 | j + 1 => f j,
        hfn, rfl, ?_⟩
      intro i hi
      cases i with
      | zero =>
        refine ⟨by simp [addDigits, hf0], by simp [addDigits, hf0], ?_⟩
        exact addDigits_carry_le hc _ _
      | succ j => simpa [addDigits] using hf j (by simpa using hi)

@[simp] theorem subDigits_length (as bs : List Digit) (h : as.length = bs.length) :
    (subDigits as bs).1.length = as.length :=
  addDigits_length _ _ _ (by simpa using h)

theorem subDigits_carry_le (as bs : List Digit) : (subDigits as bs).2 ≤ 1 :=
  addDigits_carry_le (Nat.le_refl 1) _ _

/-- The subtractor computes `a - b + B^D`, its last carry the digit above (R88). -/
theorem subDigits_numerator (as bs : List Digit) (h : as.length = bs.length) :
    (subDigits as bs).2 * base ^ as.length + numerator (subDigits as bs).1 + numerator bs =
      numerator as + base ^ as.length := by
  have h1 := addDigits_numerator 1 as (bs.map (~~~ ·)) (by simpa using h)
  have h2 := numerator_complement bs
  rw [← h] at h2
  unfold subDigits
  omega

/-! ## The leading-zero count -/

theorem leadingZeros_le (as : List Digit) : leadingZeros as ≤ as.length := by
  induction as with
  | nil => exact Nat.le_refl 0
  | cons a as ih =>
    unfold leadingZeros
    split
    · simpa using ih
    · exact Nat.zero_le _

theorem leadingZeros_replicate_append (n : Nat) (as : List Digit) :
    leadingZeros (List.replicate n 0#64 ++ as) = n + leadingZeros as := by
  induction n with
  | zero => simp
  | succ n ih => simp [List.replicate_succ, leadingZeros, ih]; omega

@[simp] theorem leadingZeros_replicate (n : Nat) : leadingZeros (List.replicate n 0#64) = n := by
  simpa [leadingZeros] using leadingZeros_replicate_append n []

/-- The digits before the count are zero. -/
theorem take_leadingZeros (as : List Digit) :
    as.take (leadingZeros as) = List.replicate (leadingZeros as) 0#64 := by
  induction as with
  | nil => rfl
  | cons a as ih =>
    unfold leadingZeros
    split
    · next h => simp [List.replicate_succ, ih, h]
    · rfl

/-- A digit array is its leading zeros and the rest. -/
theorem replicate_append_drop_leadingZeros (as : List Digit) :
    List.replicate (leadingZeros as) 0#64 ++ as.drop (leadingZeros as) = as := by
  rw [← take_leadingZeros, List.take_append_drop]

theorem getElem_before_leadingZeros (as : List Digit) {i : Nat} (h : i < leadingZeros as) :
    as[i]?.getD 0 = 0 := by
  induction as generalizing i with
  | nil => rfl
  | cons a as ih =>
    unfold leadingZeros at h
    split at h
    · next ha =>
      cases i with
      | zero => simpa using ha
      | succ j => simpa using ih (by omega)
    · omega

theorem getElem_at_leadingZeros (as : List Digit) (h : leadingZeros as < as.length) :
    as[leadingZeros as]?.getD 0 ≠ 0 := by
  induction as with
  | nil => simp at h
  | cons a as ih =>
    unfold leadingZeros at h ⊢
    split
    · next ha =>
      rw [if_pos ha] at h
      simpa using ih (by simpa using h)
    · next ha => simpa using ha

/-- The count as a bound on the numerator from above. -/
theorem numerator_lt_of_leadingZeros (as : List Digit) :
    numerator as < base ^ (as.length - leadingZeros as) := by
  have h := numerator_lt (as.drop (leadingZeros as))
  have e := congrArg numerator (replicate_append_drop_leadingZeros as)
  rw [numerator_append, numerator_replicate_zero, Nat.zero_mul, Nat.zero_add] at e
  rwa [e, List.length_drop] at h

/-- The count as a bound on the numerator from below. -/
theorem le_numerator_of_leadingZeros (as : List Digit) (h : leadingZeros as < as.length) :
    base ^ (as.length - 1 - leadingZeros as) ≤ numerator as := by
  induction as with
  | nil => simp at h
  | cons a as ih =>
    unfold leadingZeros at h ⊢
    split
    · next ha =>
      rw [if_pos ha] at h
      have := ih (by simpa using h)
      have e : (a :: as).length - 1 - (leadingZeros as + 1) = as.length - 1 - leadingZeros as := by
        simp; omega
      rw [e, numerator_cons]
      exact Nat.le_add_left_of_le this
    · next ha =>
      have h1 : 1 ≤ a.toNat := by
        rcases Nat.eq_zero_or_pos a.toNat with h0 | h0
        · exact absurd (BitVec.eq_of_toNat_eq (by simpa using h0)) ha
        · exact h0
      simp only [List.length_cons, Nat.add_sub_cancel, Nat.sub_zero, numerator_cons]
      calc base ^ as.length = 1 * base ^ as.length := (Nat.one_mul _).symm
        _ ≤ a.toNat * base ^ as.length := Nat.mul_le_mul_right _ h1
        _ ≤ _ := Nat.le_add_right _ _

theorem base_pow_lt {m n : Nat} (h : m < n) : base ^ m < base ^ n :=
  Nat.pow_lt_pow_right (by decide) h

theorem base_pow_le {m n : Nat} (h : m ≤ n) : base ^ m ≤ base ^ n :=
  Nat.pow_le_pow_right base_pos h

/-- A smaller numerator has no smaller count. -/
theorem leadingZeros_anti {as bs : List Digit} (hl : as.length = bs.length)
    (h : numerator as ≤ numerator bs) : leadingZeros bs ≤ leadingZeros as := by
  by_contra hc
  have hlt : leadingZeros as < leadingZeros bs := by omega
  have hle := leadingZeros_le bs
  have h1 := le_numerator_of_leadingZeros as (by omega)
  have h2 := numerator_lt_of_leadingZeros bs
  have h3 : base ^ (bs.length - leadingZeros bs) ≤ base ^ (as.length - 1 - leadingZeros as) :=
    base_pow_le (by omega)
  omega

end Sys2Proof.Machine
end

