-- ==== Sys2Proof/Laws/State.lean ====
section
/-! SUPPORT. One lemma per field of State per update of it: what the update leaves in the field. -/

namespace Sys2Proof.Machine

namespace State

variable (s : State)

@[simp] theorem writeReg_cfg (r : Nat) (b : BigNum) : (s.writeReg r b).cfg = s.cfg := rfl
@[simp] theorem writeReg_regs (r : Nat) (b : BigNum) : (s.writeReg r b).regs = s.regs.set r b := rfl
@[simp] theorem writeReg_fault (r : Nat) (b : BigNum) : (s.writeReg r b).fault = s.fault := rfl
@[simp] theorem writeReg_fcause (r : Nat) (b : BigNum) : (s.writeReg r b).fcause = s.fcause := rfl
@[simp] theorem writeReg_inbox (r : Nat) (b : BigNum) : (s.writeReg r b).inbox = s.inbox := rfl
@[simp] theorem writeReg_responses (r : Nat) (b : BigNum) :
    (s.writeReg r b).responses = s.responses := rfl
@[simp] theorem writeReg_freeTick (r : Nat) (b : BigNum) :
    (s.writeReg r b).freeTick = s.freeTick := rfl

@[simp] theorem writeDigits_cfg (r : Nat) (ds : List Digit) :
    (s.writeDigits r ds).cfg = s.cfg := rfl
@[simp] theorem writeDigits_regs (r : Nat) (ds : List Digit) :
    (s.writeDigits r ds).regs = s.regs.set r { dig := ds, lzc := leadingZeros ds } := rfl
@[simp] theorem writeDigits_fault (r : Nat) (ds : List Digit) :
    (s.writeDigits r ds).fault = s.fault := rfl
@[simp] theorem writeDigits_fcause (r : Nat) (ds : List Digit) :
    (s.writeDigits r ds).fcause = s.fcause := rfl
@[simp] theorem writeDigits_inbox (r : Nat) (ds : List Digit) :
    (s.writeDigits r ds).inbox = s.inbox := rfl
@[simp] theorem writeDigits_responses (r : Nat) (ds : List Digit) :
    (s.writeDigits r ds).responses = s.responses := rfl
@[simp] theorem writeDigits_freeTick (r : Nat) (ds : List Digit) :
    (s.writeDigits r ds).freeTick = s.freeTick := rfl

@[simp] theorem respond_cfg (st : Status) (v : Digit) : (s.respond st v).cfg = s.cfg := rfl
@[simp] theorem respond_regs (st : Status) (v : Digit) : (s.respond st v).regs = s.regs := rfl
@[simp] theorem respond_fault (st : Status) (v : Digit) : (s.respond st v).fault = s.fault := rfl
@[simp] theorem respond_fcause (st : Status) (v : Digit) : (s.respond st v).fcause = s.fcause := rfl
@[simp] theorem respond_inbox (st : Status) (v : Digit) : (s.respond st v).inbox = s.inbox := rfl
@[simp] theorem respond_responses (st : Status) (v : Digit) :
    (s.respond st v).responses = s.responses ++ [{ status := st, data := v }] := rfl
@[simp] theorem respond_freeTick (st : Status) (v : Digit) :
    (s.respond st v).freeTick = s.freeTick := rfl

@[simp] theorem raise_cfg (c : Cause) : (s.raise c).cfg = s.cfg := rfl
@[simp] theorem raise_regs (c : Cause) : (s.raise c).regs = s.regs := rfl
@[simp] theorem raise_fault (c : Cause) : (s.raise c).fault = true := rfl
@[simp] theorem raise_fcause (c : Cause) : (s.raise c).fcause = c.code := rfl
@[simp] theorem raise_inbox (c : Cause) : (s.raise c).inbox = s.inbox := rfl
@[simp] theorem raise_responses (c : Cause) :
    (s.raise c).responses = s.responses ++ [{ status := c.status, data := 0 }] := rfl
@[simp] theorem raise_freeTick (c : Cause) : (s.raise c).freeTick = s.freeTick := rfl

@[simp] theorem answerFaulted_cfg : (s.answerFaulted).cfg = s.cfg := rfl
@[simp] theorem answerFaulted_regs : (s.answerFaulted).regs = s.regs := rfl
@[simp] theorem answerFaulted_fault : (s.answerFaulted).fault = s.fault := rfl
@[simp] theorem answerFaulted_fcause : (s.answerFaulted).fcause = s.fcause := rfl
@[simp] theorem answerFaulted_inbox : (s.answerFaulted).inbox = s.inbox := rfl
@[simp] theorem answerFaulted_responses :
    (s.answerFaulted).responses = s.responses ++ [{ status := .faulted, data := s.fcause.setWidth 64 }] :=
  rfl
@[simp] theorem answerFaulted_freeTick : (s.answerFaulted).freeTick = s.freeTick := rfl

@[simp] theorem spoil_cfg (r : Nat) : (s.spoil r).cfg = s.cfg := rfl
@[simp] theorem spoil_regs (r : Nat) :
    (s.spoil r).regs = s.regs.set r (State.unspecified s.cfg s.freeTick) := rfl
@[simp] theorem spoil_fault (r : Nat) : (s.spoil r).fault = s.fault := rfl
@[simp] theorem spoil_fcause (r : Nat) : (s.spoil r).fcause = s.fcause := rfl
@[simp] theorem spoil_inbox (r : Nat) : (s.spoil r).inbox = s.inbox := rfl
@[simp] theorem spoil_responses (r : Nat) : (s.spoil r).responses = s.responses := rfl
@[simp] theorem spoil_freeTick (r : Nat) : (s.spoil r).freeTick = s.freeTick + 1 := rfl

@[simp] theorem assertReset_cfg (rest : List Input) : (s.assertReset rest).cfg = s.cfg := rfl
@[simp] theorem assertReset_regs (rest : List Input) :
    (s.assertReset rest).regs = List.replicate s.cfg.nreg (BigNum.zero s.cfg.d) := rfl
@[simp] theorem assertReset_fault (rest : List Input) : (s.assertReset rest).fault = false := rfl
@[simp] theorem assertReset_fcause (rest : List Input) : (s.assertReset rest).fcause = 0 := rfl
@[simp] theorem assertReset_inbox (rest : List Input) : (s.assertReset rest).inbox = rest := rfl
@[simp] theorem assertReset_responses (rest : List Input) :
    (s.assertReset rest).responses = [] := rfl
@[simp] theorem assertReset_freeTick (rest : List Input) :
    (s.assertReset rest).freeTick = s.freeTick := rfl

@[simp] theorem takeOldest_cfg (rest : List Input) : (s.takeOldest rest).cfg = s.cfg := rfl
@[simp] theorem takeOldest_regs (rest : List Input) : (s.takeOldest rest).regs = s.regs := rfl
@[simp] theorem takeOldest_fault (rest : List Input) : (s.takeOldest rest).fault = s.fault := rfl
@[simp] theorem takeOldest_fcause (rest : List Input) : (s.takeOldest rest).fcause = s.fcause := rfl
@[simp] theorem takeOldest_inbox (rest : List Input) : (s.takeOldest rest).inbox = rest := rfl
@[simp] theorem takeOldest_responses (rest : List Input) :
    (s.takeOldest rest).responses = s.responses.tail := rfl
@[simp] theorem takeOldest_freeTick (rest : List Input) :
    (s.takeOldest rest).freeTick = s.freeTick := rfl

@[simp] theorem accept_cfg (rest : List Input) : (s.accept rest).cfg = s.cfg := rfl
@[simp] theorem accept_regs (rest : List Input) : (s.accept rest).regs = s.regs := rfl
@[simp] theorem accept_fault (rest : List Input) : (s.accept rest).fault = s.fault := rfl
@[simp] theorem accept_fcause (rest : List Input) : (s.accept rest).fcause = s.fcause := rfl
@[simp] theorem accept_inbox (rest : List Input) : (s.accept rest).inbox = rest := rfl
@[simp] theorem accept_responses (rest : List Input) :
    (s.accept rest).responses = s.responses := rfl
@[simp] theorem accept_freeTick (rest : List Input) : (s.accept rest).freeTick = s.freeTick := rfl

end State

end Sys2Proof.Machine
end

