-- ==== Sys2Proof/Laws/Ops.lean ====
section
/-! SUPPORT. What the shared operations of Machine/Ops.lean and Machine/Operands.lean do: reading a
register after an update, the shape of the limb space, the checks every command passes. -/

namespace Sys2Proof.Machine

/-! ## Reading a register after an update -/

theorem reg_eq_of_lt (s : State) {r : Nat} (h : r < s.regs.length) : s.reg r = s.regs[r] := by
  simp [State.reg, h]

theorem reg_writeReg_same (s : State) {r : Nat} (b : BigNum) (h : r < s.regs.length) :
    (s.writeReg r b).reg r = b := by
  simp [State.reg, h]

theorem reg_writeReg_other (s : State) {r q : Nat} (b : BigNum) (h : q ≠ r) :
    (s.writeReg r b).reg q = s.reg q := by
  simp [State.reg, Ne.symm h]

theorem reg_spoil_other (s : State) {r q : Nat} (h : q ≠ r) : (s.spoil r).reg q = s.reg q := by
  simp [State.reg, Ne.symm h]

@[simp] theorem reg_respond (s : State) (st : Status) (v : Digit) (r : Nat) :
    (s.respond st v).reg r = s.reg r := rfl

@[simp] theorem reg_raise (s : State) (c : Cause) (r : Nat) : (s.raise c).reg r = s.reg r := rfl

@[simp] theorem reg_answerFaulted (s : State) (r : Nat) : s.answerFaulted.reg r = s.reg r := rfl

@[simp] theorem reg_accept (s : State) (rest : List Input) (r : Nat) :
    (s.accept rest).reg r = s.reg r := rfl

@[simp] theorem limbRead_respond (s : State) (st : Status) (v : Digit) (r i : Nat) :
    (s.respond st v).limbRead r i = s.limbRead r i := rfl

@[simp] theorem num_respond (s : State) (st : Status) (v : Digit) (r : Nat) :
    (s.respond st v).num r = s.num r := rfl

@[simp] theorem tracked_respond (s : State) (st : Status) (v : Digit) (r : Nat) :
    (s.respond st v).tracked r ↔ s.tracked r := Iff.rfl

/-! ## The shape of the limb space -/

theorem limbSpaceWf_iff (s : State) :
    s.limbSpaceWf = true ↔ s.regs.length = s.cfg.nreg ∧ ∀ b ∈ s.regs, b.dig.length = s.cfg.d := by
  simp [State.limbSpaceWf]

/-- The shape depends on nothing but the build and the registers. -/
theorem limbSpaceWf_congr {s t : State} (hc : t.cfg = s.cfg) (hr : t.regs = s.regs) :
    t.limbSpaceWf = s.limbSpaceWf := by
  simp [State.limbSpaceWf, hc, hr]

theorem limbSpaceWf_resetOf (cfg : Config) : (State.resetOf cfg).limbSpaceWf = true := by
  rw [limbSpaceWf_iff]
  refine ⟨by simp [State.resetOf], ?_⟩
  intro b hb
  rw [List.eq_of_mem_replicate hb]
  simp [State.resetOf, BigNum.zero]

theorem limbSpaceWf_writeReg {s : State} {r : Nat} {b : BigNum} (hs : s.limbSpaceWf = true)
    (hb : b.dig.length = s.cfg.d) : (s.writeReg r b).limbSpaceWf = true := by
  rw [limbSpaceWf_iff] at hs ⊢
  refine ⟨by simpa using hs.1, ?_⟩
  intro c hc
  rcases List.mem_or_eq_of_mem_set hc with h | h
  · exact hs.2 c h
  · subst h; exact hb

@[simp] theorem unspecified_dig_length (cfg : Config) (n : Nat) :
    (State.unspecified cfg n).dig.length = cfg.d := by
  simp [State.unspecified]

theorem limbSpaceWf_spoil {s : State} {r : Nat} (hs : s.limbSpaceWf = true) :
    (s.spoil r).limbSpaceWf = true :=
  limbSpaceWf_writeReg (b := State.unspecified s.cfg s.freeTick) hs (by simp)

/-! ## What the invariant says of one register -/

theorem regs_length {s : State} (h : s.Inv) : s.regs.length = s.cfg.nreg :=
  ((limbSpaceWf_iff s).1 h.shape).1

theorem dig_length {s : State} (h : s.Inv) {r : Nat} (hr : r < s.cfg.nreg) :
    (s.reg r).dig.length = s.cfg.d := by
  have hl := regs_length h
  rw [reg_eq_of_lt s (by omega)]
  exact ((limbSpaceWf_iff s).1 h.shape).2 _ (List.getElem_mem _)

theorem fcause_zero {s : State} (h : s.Running) : s.fcause = 0 := h.inv.faultIffCause.1 h.noFault

theorem running_tracked {s : State} (h : s.Running) {r : Nat} (hr : r < s.cfg.nreg) :
    (s.reg r).lzc = leadingZeros (s.reg r).dig := by
  rcases h.inv.counts with hc | ⟨h3, -⟩
  · exact hc r hr
  · rw [fcause_zero h] at h3; exact absurd h3 (by decide)

theorem running_lzc_le {s : State} (h : s.Running) {r : Nat} (hr : r < s.cfg.nreg) :
    (s.reg r).lzc ≤ s.cfg.d := by
  rw [running_tracked h hr, ← dig_length h.inv hr]
  exact leadingZeros_le _

/-- `LZW` is wide enough for every count: `D < 2^LZW` (R9). -/
theorem d_lt_two_pow_lzw (c : Config) : c.d < 2 ^ c.lzw := Nat.lt_log2_self

/-- `LZW` is the least such width (R9). -/
theorem lzw_least {c : Config} (hd : 1 ≤ c.d) {n : Nat} (h : c.d < 2 ^ n) : c.lzw ≤ n :=
  (Nat.log2_lt (by omega)).2 h

theorem legal_iff (c : Config) :
    c.legal = true ↔ 1 ≤ c.d ∧ c.d ≤ 2 ^ 20 ∧ 1 ≤ c.nreg ∧ c.nreg ≤ 16 := by
  simp [Config.legal, and_assoc]

/-! ## Operand checks and commands -/

theorem operandFault_none_iff (cfg : Config) (regs : List Nat) (idx : Option Nat)
    (divisor : Option Scalar) :
    operandFault cfg regs idx divisor = none ↔
      badRegister cfg regs = false ∧ badIndex cfg idx = false ∧ badDivisor divisor = false := by
  unfold operandFault
  split
  · simp_all
  · split
    · simp_all
    · split <;> simp_all

/-- No operand check raises `NEGATIVE_RESULT`. -/
theorem operandFault_ne_negativeResult (cfg : Config) (regs : List Nat) (idx : Option Nat)
    (divisor : Option Scalar) : operandFault cfg regs idx divisor ≠ some .negativeResult := by
  unfold operandFault
  split
  · simp
  · split
    · simp
    · split <;> simp

@[simp] theorem badRegister_one (cfg : Config) (r : Nat) :
    badRegister cfg [r] = decide (cfg.nreg ≤ r) := by
  simp [badRegister]

@[simp] theorem badRegister_two (cfg : Config) (r q : Nat) :
    badRegister cfg [r, q] = (decide (cfg.nreg ≤ r) || decide (cfg.nreg ≤ q)) := by
  simp [badRegister]

@[simp] theorem badIndex_none (cfg : Config) : badIndex cfg none = false := rfl

@[simp] theorem badIndex_some (cfg : Config) (i : Nat) :
    badIndex cfg (some i) = decide (cfg.d ≤ i) := rfl

@[simp] theorem badDivisor_none : badDivisor none = false := rfl

@[simp] theorem badDivisor_some (k : Scalar) : badDivisor (some k) = (k == 0) := rfl

/-- Everything `runCommand` can do. -/
theorem runCommand_cases {regs : List Nat} {idx : Option Nat} {divisor : Option Scalar}
    {rule : State → State} {s t : State} (h : runCommand regs idx divisor rule s = .next t) :
    (s.fault = true ∧ t = s.answerFaulted) ∨
    (s.fault = false ∧ ∃ c, c ≠ .negativeResult ∧ operandFault s.cfg regs idx divisor = some c ∧
      t = s.raise c) ∨
    (s.fault = false ∧ operandFault s.cfg regs idx divisor = none ∧ t = rule s) := by
  unfold runCommand at h
  split at h
  · next hf => exact .inl ⟨hf, by simpa using h.symm⟩
  · next hf =>
    have hf : s.fault = false := by simpa using hf
    split at h
    · next c hc =>
      refine .inr (.inl ⟨hf, c, ?_, hc, by simpa using h.symm⟩)
      rintro rfl
      exact operandFault_ne_negativeResult _ _ _ _ hc
    · next hc => exact .inr (.inr ⟨hf, hc, by simpa using h.symm⟩)

theorem runCommand_faulted {regs : List Nat} {idx : Option Nat} {divisor : Option Scalar}
    {rule : State → State} {s : State} (h : s.fault = true) :
    runCommand regs idx divisor rule s = .next s.answerFaulted := by
  simp [runCommand, h]

theorem runCommand_checked {regs : List Nat} {idx : Option Nat} {divisor : Option Scalar}
    {rule : State → State} {s : State} {c : Cause} (h : s.fault = false)
    (hc : operandFault s.cfg regs idx divisor = some c) :
    runCommand regs idx divisor rule s = .next (s.raise c) := by
  simp [runCommand, h, hc]

theorem runCommand_passed {regs : List Nat} {idx : Option Nat} {divisor : Option Scalar}
    {rule : State → State} {s : State} (h : s.fault = false)
    (hc : operandFault s.cfg regs idx divisor = none) :
    runCommand regs idx divisor rule s = .next (rule s) := by
  simp [runCommand, h, hc]

/-- A command always answers a next state. -/
theorem runCommand_next (regs : List Nat) (idx : Option Nat) (divisor : Option Scalar)
    (rule : State → State) (s : State) : ∃ t, runCommand regs idx divisor rule s = .next t := by
  unfold runCommand
  split
  · exact ⟨_, rfl⟩
  · split <;> exact ⟨_, rfl⟩

/-! ## Writing all digits of a register -/

/-- What a command that writes all digits of `rd` and answers OK leaves. -/
theorem onlyWrote_writeReg (s : State) (rd : Nat) (b : BigNum) :
    s.OnlyWrote rd ((s.writeReg rd b).respond .ok 0) where
  others r h := by simpa using reg_writeReg_other s b h
  registers := by simp
  responses := by simp
  fault := rfl
  fcause := rfl
  cfg := rfl
  inbox := rfl
  freeTick := rfl

theorem onlyWrote_writeDigits (s : State) (rd : Nat) (ds : List Digit) :
    s.OnlyWrote rd ((s.writeDigits rd ds).respond .ok 0) :=
  onlyWrote_writeReg s rd _

theorem reg_writeDigits_same (s : State) {r : Nat} (ds : List Digit) (h : r < s.regs.length) :
    (s.writeDigits r ds).reg r = { dig := ds, lzc := leadingZeros ds } :=
  reg_writeReg_same s _ h

end Sys2Proof.Machine
end

