-- ==== Sys2Proof/Laws/Exec.lean ====
section
/-! SUPPORT. Everything a command and a step can do, said once: the inversion lemmas of the meanings
and of `step`, and that each kind of change keeps the invariant. -/

namespace Sys2Proof.Machine

/-- A number that may stand in a register of a build: `D` digits and an exact count. -/
structure BigNum.Fits (d : Nat) (b : BigNum) : Prop where
  length : b.dig.length = d
  count : b.lzc = leadingZeros b.dig

/-- What a command that passed its checks may do to a running block: answer only, write one register,
or go negative. -/
inductive Effect (i : Instr) (s t : State) : Prop where
  | answer (data : Digit) (h : t = s.respond .ok data)
  | write (rd : Nat) (b : BigNum) (hrd : rd < s.cfg.nreg) (hb : s.Running → b.Fits s.cfg.d)
      (h : t = (s.writeReg rd b).respond .ok 0)
  | negative (rd rs : Nat) (hrd : rd < s.cfg.nreg) (hi : i = .sub rd rs)
      (h : t = (s.spoil rd).raise .negativeResult)

/-- The digits a writing command leaves, of the right number, fit with the count of the tracker. -/
theorem fits_writeDigits {d : Nat} {ds : List Digit} (h : ds.length = d) :
    BigNum.Fits d { dig := ds, lzc := leadingZeros ds } := ⟨h, rfl⟩

/-- Everything a command can do (R59): answer `FAULTED`, raise the fault of an operand check, or its
own effect. -/
theorem exec_cases {i : Instr} {s t : State} (h : exec i s = .next t) :
    (s.fault = true ∧ t = s.answerFaulted) ∨
    (s.fault = false ∧ ∃ c, c ≠ .negativeResult ∧ t = s.raise c) ∨
    (s.fault = false ∧ Effect i s t) := by
  have lift : ∀ {regs idx divisor} {rule : State → State},
      runCommand regs idx divisor rule s = .next t →
      (operandFault s.cfg regs idx divisor = none → Effect i s (rule s)) →
      (s.fault = true ∧ t = s.answerFaulted) ∨
      (s.fault = false ∧ ∃ c, c ≠ .negativeResult ∧ t = s.raise c) ∨
      (s.fault = false ∧ Effect i s t) := by
    intro regs idx divisor rule hr he
    rcases runCommand_cases hr with h1 | ⟨hf, c, hc, -, ht⟩ | ⟨hf, hn, ht⟩
    · exact .inl h1
    · exact .inr (.inl ⟨hf, c, hc, ht⟩)
    · exact .inr (.inr ⟨hf, ht ▸ he hn⟩)
  cases i with
  | setz rd =>
    unfold exec execSetz at h
    refine lift h fun hn => .write rd (BigNum.zero s.cfg.d) ?_ (fun _ => ?_) rfl
    · simpa [operandFault_none_iff] using hn
    · exact ⟨by simp [BigNum.zero], by simp [BigNum.zero]⟩
  | isz rd =>
    unfold exec execIsz at h
    exact lift h fun _ => .answer _ rfl
  | recip rd x =>
    unfold exec execRecip at h
    refine lift h fun hn => .write rd _ ?_ (fun _ => fits_writeDigits ?_) rfl
    · simp [operandFault_none_iff] at hn; omega
    · simp
  | scale rd k =>
    unfold exec execScale at h
    refine lift h fun hn => ?_
    have hrd : rd < s.cfg.nreg := by simpa [operandFault_none_iff] using hn
    exact .write rd _ hrd (fun hr => fits_writeDigits (by simpa using dig_length hr.inv hrd)) rfl
  | divo rd rs d =>
    unfold exec execDivo at h
    refine lift h fun hn => ?_
    have hn : (rd < s.cfg.nreg ∧ rs < s.cfg.nreg) ∧ ¬ d = 0 := by
      simpa [operandFault_none_iff] using hn
    refine .write rd _ hn.1.1 (fun hr => fits_writeDigits ?_) rfl
    have h1 := dig_length hr.inv hn.1.2
    have h2 := running_lzc_le hr hn.1.2
    simp; omega
  | add rd rs =>
    unfold exec execAdd at h
    refine lift h fun hn => ?_
    have hn : rd < s.cfg.nreg ∧ rs < s.cfg.nreg := by simpa [operandFault_none_iff] using hn
    refine .write rd _ hn.1 (fun hr => fits_writeDigits ?_) rfl
    have h1 := dig_length hr.inv hn.1
    have h2 := dig_length hr.inv hn.2
    rw [addDigits_length _ _ _ (by omega), h1]
  | sub rd rs =>
    unfold exec execSub at h
    refine lift h fun hn => ?_
    have hn : rd < s.cfg.nreg ∧ rs < s.cfg.nreg := by simpa [operandFault_none_iff] using hn
    dsimp only
    split
    · exact .negative rd rs hn.1 rfl rfl
    · refine .write rd _ hn.1 (fun hr => fits_writeDigits ?_) rfl
      have h1 := dig_length hr.inv hn.1
      have h2 := dig_length hr.inv hn.2
      rw [subDigits_length _ _ (by omega), h1]
  | divs rd d =>
    unfold exec execDivs at h
    refine lift h fun hn => ?_
    have hn : rd < s.cfg.nreg ∧ ¬ d = 0 := by simpa [operandFault_none_iff] using hn
    refine .write rd _ hn.1 (fun hr => fits_writeDigits ?_) rfl
    have h1 := dig_length hr.inv hn.1
    have h2 := running_lzc_le hr hn.1
    simp; omega
  | copy rd rs =>
    unfold exec execCopy at h
    refine lift h fun hn => ?_
    have hn : rd < s.cfg.nreg ∧ rs < s.cfg.nreg := by simpa [operandFault_none_iff] using hn
    exact .write rd _ hn.1 (fun hr => ⟨dig_length hr.inv hn.2, running_tracked hr hn.2⟩) rfl
  | rdlimb rd idx =>
    unfold exec execRdlimb at h
    exact lift h fun _ => .answer _ rfl
  | wrlimb rd idx v =>
    unfold exec execWrlimb at h
    refine lift h fun hn => ?_
    have hn : rd < s.cfg.nreg ∧ idx < s.cfg.d := by simpa [operandFault_none_iff] using hn
    exact .write rd _ hn.1 (fun hr => fits_writeDigits (by simpa using dig_length hr.inv hn.1)) rfl
  | rdlzc rd =>
    unfold exec execRdlzc at h
    exact lift h fun _ => .answer _ rfl

/-- Every command answers a next state, whatever its operands and the state. -/
theorem exec_next (i : Instr) (s : State) : ∃ t, exec i s = .next t := by
  cases i <;> unfold exec <;> exact runCommand_next _ _ _ _ _

/-! ## Each kind of change keeps the invariant -/

/-- The invariant depends on the build, the registers and the fault status only. -/
theorem inv_congr {s t : State} (hs : s.Inv) (hc : t.cfg = s.cfg) (hr : t.regs = s.regs)
    (hf : t.fault = s.fault) (hfc : t.fcause = s.fcause) : t.Inv where
  legalBuild := hc ▸ hs.legalBuild
  shape := (limbSpaceWf_congr hc hr).trans hs.shape
  countWidth := by rw [hr, hc]; exact hs.countWidth
  faultIffCause := by rw [hf, hfc]; exact hs.faultIffCause
  knownCause := by rw [hfc]; exact hs.knownCause
  counts := by
    have e : ∀ r, t.tracked r ↔ s.tracked r := by
      intro r; simp [State.tracked, State.reg, hr, hc]
    simpa [e, hc, hfc] using hs.counts

theorem inv_respond {s : State} (hs : s.Inv) (st : Status) (v : Digit) : (s.respond st v).Inv :=
  inv_congr hs rfl rfl rfl rfl

theorem code_ne_zero (c : Cause) : c.code ≠ 0 := by cases c <;> decide

theorem code_le_four (c : Cause) : c.code.toNat ≤ 4 := by cases c <;> decide

/-- Raising a fault on a running block keeps the invariant. -/
theorem inv_raise {s : State} (hs : s.Running) (c : Cause) : (s.raise c).Inv where
  legalBuild := hs.inv.legalBuild
  shape := hs.inv.shape
  countWidth := hs.inv.countWidth
  faultIffCause := by simpa using code_ne_zero c
  knownCause := code_le_four c
  counts := .inl fun _ hr => running_tracked hs hr

theorem inv_writeReg {s : State} (hs : s.Running) {rd : Nat} {b : BigNum} (hrd : rd < s.cfg.nreg)
    (hb : b.Fits s.cfg.d) : (s.writeReg rd b).Inv where
  legalBuild := hs.inv.legalBuild
  shape := limbSpaceWf_writeReg hs.inv.shape hb.length
  countWidth := by
    intro c hc
    rcases List.mem_or_eq_of_mem_set hc with h | h
    · exact hs.inv.countWidth c h
    · have h1 := leadingZeros_le b.dig
      have h2 := d_lt_two_pow_lzw s.cfg
      rw [h, hb.count, writeReg_cfg_eq]
      have := hb.length
      omega
  faultIffCause := hs.inv.faultIffCause
  knownCause := hs.inv.knownCause
  counts := by
    refine .inl fun r hr => ?_
    by_cases h : r = rd
    · subst h
      rw [State.tracked, reg_writeReg_same s b (by rw [regs_length hs.inv]; exact hrd)]
      exact hb.count
    · rw [State.tracked, reg_writeReg_other s b h]
      exact running_tracked hs hr
where
  writeReg_cfg_eq : (s.writeReg rd b).cfg.lzw = s.cfg.lzw := rfl

/-- A subtraction that went negative keeps the invariant, which excepts its destination. -/
theorem inv_spoil_raise {s : State} (hs : s.Running) (rd : Nat) :
    ((s.spoil rd).raise .negativeResult).Inv where
  legalBuild := hs.inv.legalBuild
  shape := (limbSpaceWf_congr rfl rfl).trans (limbSpaceWf_spoil (r := rd) hs.inv.shape)
  countWidth := by
    intro c hc
    rcases List.mem_or_eq_of_mem_set hc with h | h
    · exact hs.inv.countWidth c h
    · subst h
      exact Nat.mod_lt _ (Nat.pow_pos (by decide))
  faultIffCause := by simpa using code_ne_zero .negativeResult
  knownCause := code_le_four .negativeResult
  counts := by
    refine .inr ⟨rfl, rd, fun r hr hne => ?_⟩
    rw [State.tracked, reg_raise, reg_spoil_other s hne]
    exact running_tracked hs hr

theorem inv_resetOf {cfg : Config} (h : cfg.legal = true) : (State.resetOf cfg).Inv where
  legalBuild := h
  shape := limbSpaceWf_resetOf cfg
  countWidth := by
    intro b hb
    rw [List.eq_of_mem_replicate hb]
    exact d_lt_two_pow_lzw cfg
  faultIffCause := by simp [State.resetOf]
  knownCause := by simp [State.resetOf]
  counts := by
    refine .inl fun r hr => ?_
    have : r < (State.resetOf cfg).regs.length := by simpa [State.resetOf] using hr
    rw [State.tracked, reg_eq_of_lt _ this]
    simp [State.resetOf, BigNum.zero]

/-! ## A step -/

/-- Everything a step can do, by the input it takes (R56, R59, R125, R126, R140). -/
theorem step_cases {s t : State} (h : step s = .next t) :
    (s.inbox = [] ∧ t = s) ∨
    (∃ rest, s.inbox = .takeResponse :: rest ∧ t = s.takeOldest rest) ∨
    (∃ rest, s.inbox = .reset :: rest ∧ t = s.assertReset rest) ∨
    (∃ w rest, s.inbox = .command w :: rest ∧
      ((s.fault = true ∧ t = (s.accept rest).answerFaulted) ∨
       (s.fault = false ∧ (∃ e, decode w = .error e) ∧
          t = (s.accept rest).raise .illegalCommand) ∨
       (s.fault = false ∧ ∃ i, decode w = .ok i ∧ exec i (s.accept rest) = .next t))) := by
  unfold step handleInput at h
  split at h
  · next hi => exact .inl ⟨hi, by simpa using h.symm⟩
  · next w rest hi =>
    refine .inr (.inr (.inr ⟨w, rest, hi, ?_⟩))
    unfold handleWord at h
    split at h
    · next hf => exact .inl ⟨hf, by simpa using h.symm⟩
    · next hf =>
      have hf : s.fault = false := by simpa using hf
      split at h
      · next e he => exact .inr (.inl ⟨hf, ⟨e, he⟩, by simpa using h.symm⟩)
      · next i he => exact .inr (.inr ⟨hf, i, he, h⟩)
  · next rest hi => exact .inr (.inl ⟨rest, hi, by simpa using h.symm⟩)
  · next rest hi => exact .inr (.inr (.inl ⟨rest, hi, by simpa using h.symm⟩))

end Sys2Proof.Machine
end

