-- ==== Sys2Proof/Laws/Commands.lean ====
section
/-! SUPPORT. What each command does to a running block once its operands have passed their checks, what
it does otherwise, and how a command word at the port runs: the equations that proofs about commands
cite instead of unfolding `exec`. -/

namespace Sys2Proof.Machine

/-! ## The operand checks pass -/

theorem regs_length_lt {s : State} (h : s.Inv) {r : Nat} (hr : r < s.cfg.nreg) : r < s.regs.length := by
  rw [regs_length h]; exact hr

theorem scalar_pos {x : Scalar} (h : x ≠ 0) : 0 < x.toNat := by
  rcases Nat.eq_zero_or_pos x.toNat with h0 | h0
  · exact absurd (BitVec.eq_of_toNat_eq (by simpa using h0)) h
  · exact h0

theorem operandFault_one {cfg : Config} {rd : Nat} (h : rd < cfg.nreg) :
    operandFault cfg [rd] none none = none := by
  simp [operandFault_none_iff]; omega

theorem operandFault_one_scalar {cfg : Config} {rd : Nat} (h : rd < cfg.nreg) {x : Scalar}
    (hx : x ≠ 0) : operandFault cfg [rd] none (some x) = none := by
  have : ¬ x = 0#64 := hx
  simp [operandFault_none_iff, this]; omega

theorem operandFault_one_index {cfg : Config} {rd i : Nat} (h : rd < cfg.nreg) (hi : i < cfg.d) :
    operandFault cfg [rd] (some i) none = none := by
  simp [operandFault_none_iff]; omega

theorem operandFault_two {cfg : Config} {rd rs : Nat} (h : rd < cfg.nreg) (h' : rs < cfg.nreg) :
    operandFault cfg [rd, rs] none none = none := by
  simp [operandFault_none_iff]; omega

theorem operandFault_two_scalar {cfg : Config} {rd rs : Nat} (h : rd < cfg.nreg)
    (h' : rs < cfg.nreg) {x : Scalar} (hx : x ≠ 0) :
    operandFault cfg [rd, rs] none (some x) = none := by
  have : ¬ x = 0#64 := hx
  simp [operandFault_none_iff, this]; omega

/-! ## Writing all digits of a register of a running block -/

/-- The register after all its digits were written. -/
theorem reg_written {s : State} (hs : s.Inv) {rd : Nat} (h : rd < s.cfg.nreg) (ds : List Digit) :
    ((s.writeDigits rd ds).respond .ok 0).reg rd = { dig := ds, lzc := leadingZeros ds } := by
  simpa using reg_writeDigits_same s ds (regs_length_lt hs h)

/-- A running block goes on running after a command that wrote `D` digits. -/
theorem running_written {s : State} (hs : s.Running) {rd : Nat} (h : rd < s.cfg.nreg)
    {ds : List Digit} (hl : ds.length = s.cfg.d) :
    ((s.writeDigits rd ds).respond .ok 0).Running :=
  ⟨inv_respond (inv_writeReg hs h ⟨hl, rfl⟩) _ _, hs.noFault⟩

/-- On a running block isZero says that the numerator is 0 (R25). -/
theorem isZero_iff_num {s : State} (h : s.Running) {r : Nat} (hr : r < s.cfg.nreg) :
    (s.reg r).isZero s.cfg.d = true ↔ s.num r = 0 := by
  have ht := running_tracked h hr
  have hl := dig_length h.inv hr
  have hle := leadingZeros_le (s.reg r).dig
  have hlt := numerator_lt_of_leadingZeros (s.reg r).dig
  simp only [BigNum.isZero, beq_iff_eq, State.num]
  rw [ht, ← hl]
  constructor
  · intro h; rw [h, Nat.sub_self] at hlt; simp at hlt; exact hlt
  · intro h0
    by_contra hc
    have := le_numerator_of_leadingZeros (s.reg r).dig (by omega)
    have hp := base_pow_pos ((s.reg r).dig.length - 1 - leadingZeros (s.reg r).dig)
    omega

/-- The numerator of a register is below the power of `B` that its count leaves (R60). -/
theorem num_lt_of_count {s : State} (hs : s.Running) {r : Nat} (h : r < s.cfg.nreg) :
    s.num r < base ^ (s.cfg.d - (s.reg r).lzc) := by
  have := numerator_lt_of_leadingZeros (s.reg r).dig
  rw [← running_tracked hs h, dig_length hs.inv h] at this
  exact this

/-- The numerator of the quotient, of any register. -/
theorem divDigits_num (s : State) (rd : Nat) {x : Scalar} (hx : x ≠ 0) :
    numerator (divDigits x.toNat 0 (s.reg rd).dig) = s.num rd / x.toNat := by
  rw [divDigits_numerator _ (scalar_pos hx)]; simp [State.num]

/-! ## Each command on a running block -/

section passed

variable {s : State} (hs : s.Running) {rd rs : Nat} (h : rd < s.cfg.nreg)
include hs h

theorem exec_setz_passed :
    exec (.setz rd) s = .next ((s.writeReg rd (BigNum.zero s.cfg.d)).respond .ok 0) := by
  unfold exec; exact runCommand_passed hs.noFault (operandFault_one h)

theorem exec_recip_passed {x : Scalar} (hx : x ≠ 0) :
    exec (.recip rd x) s =
      .next ((s.writeDigits rd (recipDigits x.toNat s.cfg.d 1)).respond .ok 0) := by
  unfold exec; exact runCommand_passed hs.noFault (operandFault_one_scalar h hx)

theorem exec_scale_passed {k : Scalar} :
    exec (.scale rd k) s =
      .next ((s.writeDigits rd (scaleDigits k.toNat (s.reg rd).dig).1).respond .ok 0) := by
  unfold exec; exact runCommand_passed hs.noFault (operandFault_one h)

/-- The zeros `DIVO` writes before the count are the quotient's own digits. -/
theorem zeros_append_divDigits (d : Nat) :
    List.replicate (s.reg rd).lzc 0#64 ++ divDigits d 0 ((s.reg rd).dig.drop (s.reg rd).lzc) =
      divDigits d 0 (s.reg rd).dig := by
  rw [running_tracked hs h, ← divDigits_skip, replicate_append_drop_leadingZeros]

/-- The digits `DIVS` leaves before the count are the quotient's own digits. -/
theorem kept_append_divDigits (d : Nat) :
    (s.reg rd).dig.take (s.reg rd).lzc ++ divDigits d 0 ((s.reg rd).dig.drop (s.reg rd).lzc) =
      divDigits d 0 (s.reg rd).dig := by
  rw [running_tracked hs h, take_leadingZeros, ← divDigits_skip, replicate_append_drop_leadingZeros]

theorem exec_divo_passed (h' : rs < s.cfg.nreg) {x : Scalar} (hx : x ≠ 0) :
    exec (.divo rd rs x) s =
      .next ((s.writeDigits rd (divDigits x.toNat 0 (s.reg rs).dig)).respond .ok 0) := by
  rw [← zeros_append_divDigits hs h']
  unfold exec; exact runCommand_passed hs.noFault (operandFault_two_scalar h h' hx)

theorem exec_divs_passed {x : Scalar} (hx : x ≠ 0) :
    exec (.divs rd x) s =
      .next ((s.writeDigits rd (divDigits x.toNat 0 (s.reg rd).dig)).respond .ok 0) := by
  rw [← kept_append_divDigits hs h]
  unfold exec; exact runCommand_passed hs.noFault (operandFault_one_scalar h hx)

theorem exec_add_passed (h' : rs < s.cfg.nreg) :
    exec (.add rd rs) s =
      .next ((s.writeDigits rd (addDigits 0 (s.reg rd).dig (s.reg rs).dig).1).respond .ok 0) := by
  unfold exec; exact runCommand_passed hs.noFault (operandFault_two h h')

theorem exec_sub_passed (h' : rs < s.cfg.nreg)
    (hc : (subDigits (s.reg rd).dig (s.reg rs).dig).2 ≠ 0) :
    exec (.sub rd rs) s =
      .next ((s.writeDigits rd (subDigits (s.reg rd).dig (s.reg rs).dig).1).respond .ok 0) := by
  unfold exec
  refine (runCommand_passed hs.noFault (operandFault_two h h')).trans ?_
  dsimp only
  split
  · next e => exact absurd e hc
  · rfl

theorem exec_sub_negative (h' : rs < s.cfg.nreg)
    (hc : (subDigits (s.reg rd).dig (s.reg rs).dig).2 = 0) :
    exec (.sub rd rs) s = .next ((s.spoil rd).raise .negativeResult) := by
  unfold exec
  refine (runCommand_passed hs.noFault (operandFault_two h h')).trans ?_
  dsimp only
  rw [hc]

theorem exec_copy_passed (h' : rs < s.cfg.nreg) :
    exec (.copy rd rs) s = .next ((s.writeReg rd (s.reg rs)).respond .ok 0) := by
  unfold exec; exact runCommand_passed hs.noFault (operandFault_two h h')

theorem exec_wrlimb_passed {idx : Nat} (hi : idx < s.cfg.d) {v : Digit} :
    exec (.wrlimb rd idx v) s =
      .next ((s.writeDigits rd ((s.reg rd).dig.set idx v)).respond .ok 0) := by
  unfold exec; exact runCommand_passed hs.noFault (operandFault_one_index h hi)

/-! ## The numerators the digit loops leave -/

theorem scaleDigits_num (k : Scalar) :
    numerator (scaleDigits k.toNat (s.reg rd).dig).1 = k.toNat * s.num rd % base ^ s.cfg.d ∧
    (scaleDigits k.toNat (s.reg rd).dig).2 = k.toNat * s.num rd / base ^ s.cfg.d := by
  have hl := dig_length hs.inv h
  have e := scaleDigits_numerator k.toNat (s.reg rd).dig
  have hlt := numerator_lt (scaleDigits k.toNat (s.reg rd).dig).1
  rw [scaleDigits_length, hl] at hlt
  rw [hl] at e
  have hm := Nat.div_add_mod (k.toNat * s.num rd) (base ^ s.cfg.d)
  have hm2 := Nat.mod_lt (k.toNat * s.num rd) (base_pow_pos s.cfg.d)
  obtain ⟨a, b⟩ := split_unique hlt hm2 (e.trans (by rw [Nat.mul_comm] at hm; exact hm.symm))
  exact ⟨b, a⟩

theorem addDigits_num (h' : rs < s.cfg.nreg) :
    numerator (addDigits 0 (s.reg rd).dig (s.reg rs).dig).1 =
      (s.num rd + s.num rs) % base ^ s.cfg.d ∧
    (addDigits 0 (s.reg rd).dig (s.reg rs).dig).2 = (s.num rd + s.num rs) / base ^ s.cfg.d := by
  have hl := dig_length hs.inv h
  have hl' := dig_length hs.inv h'
  have e := addDigits_numerator 0 (s.reg rd).dig (s.reg rs).dig (by omega)
  have hlt := numerator_lt (addDigits 0 (s.reg rd).dig (s.reg rs).dig).1
  rw [addDigits_length _ _ _ (by omega), hl] at hlt
  rw [hl, Nat.zero_add] at e
  have hm := Nat.div_add_mod (s.num rd + s.num rs) (base ^ s.cfg.d)
  have hm2 := Nat.mod_lt (s.num rd + s.num rs) (base_pow_pos s.cfg.d)
  obtain ⟨a, b⟩ := split_unique hlt hm2 (e.trans (by rw [Nat.mul_comm] at hm; exact hm.symm))
  exact ⟨b, a⟩

/-- The last carry of the subtractor is 0 exactly when the subtrahend is larger. -/
theorem subDigits_carry_iff (h' : rs < s.cfg.nreg) :
    (subDigits (s.reg rd).dig (s.reg rs).dig).2 = 0 ↔ s.num rd < s.num rs := by
  have la := dig_length hs.inv h
  have lb := dig_length hs.inv h'
  have e := subDigits_numerator (s.reg rd).dig (s.reg rs).dig (by omega)
  have l := subDigits_length (s.reg rd).dig (s.reg rs).dig (by omega)
  have c := subDigits_carry_le (s.reg rd).dig (s.reg rs).dig
  have n := numerator_lt (subDigits (s.reg rd).dig (s.reg rs).dig).1
  have nb := numerator_lt (s.reg rs).dig
  rw [l] at n
  rw [lb, ← la] at nb
  unfold State.num
  rcases Nat.le_one_iff_eq_zero_or_eq_one.1 c with h0 | h1
  · rw [h0] at e; constructor
    · intro _; omega
    · intro _; exact h0
  · rw [h1] at e; constructor
    · intro hh; omega
    · intro hh; omega

theorem subDigits_num (h' : rs < s.cfg.nreg) (hn : s.num rs ≤ s.num rd) :
    numerator (subDigits (s.reg rd).dig (s.reg rs).dig).1 = s.num rd - s.num rs := by
  have la := dig_length hs.inv h
  have lb := dig_length hs.inv h'
  have e := subDigits_numerator (s.reg rd).dig (s.reg rs).dig (by omega)
  have hc : (subDigits (s.reg rd).dig (s.reg rs).dig).2 ≠ 0 := by
    intro hc; have := (subDigits_carry_iff hs h h').1 hc; omega
  have c := subDigits_carry_le (s.reg rd).dig (s.reg rs).dig
  have : (subDigits (s.reg rd).dig (s.reg rs).dig).2 = 1 := by omega
  rw [this] at e
  unfold State.num at *
  omega

end passed

/-! ## A command word at the port -/

/-- A decoded command at the port runs, faulted or not. -/
theorem step_command {s : State} {w : CommandWord} {rest : List Input} {i : Instr}
    (hi : s.inbox = .command w :: rest) (hd : decode w = .ok i) :
    step s = exec i (s.accept rest) := by
  unfold step handleInput
  rw [hi]
  dsimp only
  unfold handleWord
  by_cases hf : (s.accept rest).fault = true
  · rw [if_pos hf]
    cases i <;> unfold exec <;> exact (runCommand_faulted hf).symm
  · rw [if_neg hf, hd]

/-- A word of a row at the port runs the row's command on the word's fields. -/
theorem step_spelled {s : State} {w : CommandWord} {rest : List Input} {op : Opcode}
    (hi : s.inbox = .command w :: rest) (hs : op.spelledBy w) :
    step s =
      exec (op.build (rdField w).toNat (rsField w).toNat (idxField w).toNat (kField w))
        (s.accept rest) :=
  step_command hi ((decode_ok_iff w _).2 ⟨op, hs, rfl⟩)

theorem step_illegal {s : State} {w : CommandWord} {rest : List Input}
    (hi : s.inbox = .command w :: rest) (hf : s.fault = false)
    (h : ∀ op : Opcode, ¬ op.spelledBy w) :
    step s = .next ((s.accept rest).raise .illegalCommand) := by
  obtain ⟨e, he⟩ := (decode_error_iff w).2 h
  simp [step, handleInput, hi, handleWord, hf, he]

/-- The case of `step_cases` for a command word. -/
theorem step_command_cases {s t : State} {w : CommandWord} {rest : List Input}
    (hi : s.inbox = .command w :: rest) (h : step s = .next t) :
    (s.fault = true ∧ t = (s.accept rest).answerFaulted) ∨
    (s.fault = false ∧ (∃ e, decode w = .error e) ∧ t = (s.accept rest).raise .illegalCommand) ∨
    (s.fault = false ∧ ∃ i, decode w = .ok i ∧ exec i (s.accept rest) = .next t) := by
  rcases step_cases h with ⟨h, -⟩ | ⟨r, h, -⟩ | ⟨r, h, -⟩ | ⟨w', rest', h, hc⟩
  · simp [hi] at h
  · simp [hi] at h
  · simp [hi] at h
  · obtain ⟨rfl, rfl⟩ : w = w' ∧ rest = rest' := by simpa [hi] using h
    exact hc

theorem exec_faulted {s : State} (h : s.fault = true) (i : Instr) :
    exec i s = .next s.answerFaulted := by
  cases i <;> unfold exec <;> exact runCommand_faulted h

/-- The operand check of a row, on the fields of a word. -/
def rowFault (cfg : Config) (op : Opcode) (w : CommandWord) : Option Cause :=
  operandFault cfg
    (if op.usesRS then [(rdField w).toNat, (rsField w).toNat] else [(rdField w).toNat])
    (if op.usesIDX then some (idxField w).toNat else none)
    (if op.divides then some (kField w) else none)

/-- A command whose operand check fires raises that fault and does nothing else. -/
theorem exec_build_checked {op : Opcode} {w : CommandWord} {s : State} {c : Cause}
    (hf : s.fault = false) (hc : rowFault s.cfg op w = some c) :
    exec (op.build (rdField w).toNat (rsField w).toNat (idxField w).toNat (kField w)) s =
      .next (s.raise c) := by
  cases op <;> dsimp only [Opcode.build] <;> unfold exec <;> exact runCommand_checked hf hc

/-- The operand check of a row, by the three tests of R59 steps 3 to 5. -/
theorem rowFault_cases (cfg : Config) (op : Opcode) (w : CommandWord) :
    let badReg := cfg.nreg ≤ (rdField w).toNat ∨
      (op.usesRS = true ∧ cfg.nreg ≤ (rsField w).toNat)
    let badIdx := op.usesIDX = true ∧ cfg.d ≤ (idxField w).toNat
    let zeroDivisor := op.divides = true ∧ kField w = 0
    (badReg → rowFault cfg op w = some .illegalCommand) ∧
    (¬ badReg → badIdx → rowFault cfg op w = some .indexRange) ∧
    (¬ badReg → ¬ badIdx → zeroDivisor → rowFault cfg op w = some .illegalArgument) ∧
    (¬ badReg → ¬ badIdx → ¬ zeroDivisor → rowFault cfg op w = none) := by
  intro badReg badIdx zd
  have e1 : badRegister cfg (if op.usesRS then [(rdField w).toNat, (rsField w).toNat]
      else [(rdField w).toNat]) = true ↔ badReg := by
    cases h : op.usesRS <;> simp [badReg, h]
  have e2 : badIndex cfg (if op.usesIDX then some (idxField w).toNat else none) = true ↔ badIdx := by
    cases h : op.usesIDX <;> simp [badIdx, h]
  have e3 : badDivisor (if op.divides then some (kField w) else none) = true ↔ zd := by
    cases h : op.divides <;> simp [zd, h]
  unfold rowFault operandFault
  refine ⟨?_, ?_, ?_, ?_⟩
  · intro h; rw [if_pos (e1.2 h)]
  · intro h h2; rw [if_neg (mt e1.1 h), if_pos (e2.2 h2)]
  · intro h h2 h3; rw [if_neg (mt e1.1 h), if_neg (mt e2.1 h2), if_pos (e3.2 h3)]
  · intro h h2 h3; rw [if_neg (mt e1.1 h), if_neg (mt e2.1 h2), if_neg (mt e3.1 h3)]

end Sys2Proof.Machine
end

