-- ==== Sys2Proof/Laws/PerInstr.lean ====
section
/-! SUPPORT. Statements about every command as syntax, one lemma per constructor.
Family `EncodedWordIsOfItsRow`: the word of a command is a word of the command's own row of the opcode
map (spec/30_encoding.md R53). -/

namespace Sys2Proof.Laws.EncodedWordIsOfItsRow

/-- The encoded word, masked with the row's mask, is the row's match. -/
def Statement (i : Instr) : Prop := i.opcode.spelledBy (encode i)

theorem setz (rd : Nat) : Statement (.setz rd) := by
  simp [Statement, spelledBy_iff, unusedFieldsZero_iff, encode, Instr.opcode]

theorem isz (rd : Nat) : Statement (.isz rd) := by
  simp [Statement, spelledBy_iff, unusedFieldsZero_iff, encode, Instr.opcode]

theorem recip (rd : Nat) (x : Scalar) : Statement (.recip rd x) := by
  simp [Statement, spelledBy_iff, unusedFieldsZero_iff, encode, Instr.opcode, Opcode.usesK]

theorem scale (rd : Nat) (k : Scalar) : Statement (.scale rd k) := by
  simp [Statement, spelledBy_iff, unusedFieldsZero_iff, encode, Instr.opcode, Opcode.usesK]

theorem divo (rd rs : Nat) (d : Scalar) : Statement (.divo rd rs d) := by
  simp [Statement, spelledBy_iff, unusedFieldsZero_iff, encode, Instr.opcode, Opcode.usesK,
    Opcode.usesRS]

theorem add (rd rs : Nat) : Statement (.add rd rs) := by
  simp [Statement, spelledBy_iff, unusedFieldsZero_iff, encode, Instr.opcode, Opcode.usesRS]

theorem sub (rd rs : Nat) : Statement (.sub rd rs) := by
  simp [Statement, spelledBy_iff, unusedFieldsZero_iff, encode, Instr.opcode, Opcode.usesRS]

theorem divs (rd : Nat) (d : Scalar) : Statement (.divs rd d) := by
  simp [Statement, spelledBy_iff, unusedFieldsZero_iff, encode, Instr.opcode, Opcode.usesK]

theorem copy (rd rs : Nat) : Statement (.copy rd rs) := by
  simp [Statement, spelledBy_iff, unusedFieldsZero_iff, encode, Instr.opcode, Opcode.usesRS]

theorem rdlimb (rd idx : Nat) : Statement (.rdlimb rd idx) := by
  simp [Statement, spelledBy_iff, unusedFieldsZero_iff, encode, Instr.opcode, Opcode.usesIDX]

theorem wrlimb (rd idx : Nat) (v : Digit) : Statement (.wrlimb rd idx v) := by
  simp [Statement, spelledBy_iff, unusedFieldsZero_iff, encode, Instr.opcode, Opcode.usesK,
    Opcode.usesIDX]

theorem rdlzc (rd : Nat) : Statement (.rdlzc rd) := by
  simp [Statement, spelledBy_iff, unusedFieldsZero_iff, encode, Instr.opcode]

end Sys2Proof.Laws.EncodedWordIsOfItsRow
end

