-- ==== Sys2Proof/Machine/Client.lean ====
section
/-! DEFINITION. The client sequences of spec/45_client_sequences.md, informative for the block
(R100): the pseudo-instructions `ARCTAN` and `MACHIN` as the commands they stand for (R101, R102).
Nothing here adds state or behaviour to the block; no other file of the model uses it. -/

namespace Sys2Proof.Client

open Sys2Proof.Machine

/-- The commands before the loop of `ARCTAN rd, rt, rc, x` (R101). -/
def arctanStart (rd rt : Nat) (x : Scalar) : List Instr := [.recip rd x, .copy rt rd]

/-- One pass of the loop of `ARCTAN`, both halves, from the client's `x2` and `denom`; the client's
`denom` is then 4 larger (R101). -/
def arctanPass (rd rt rc : Nat) (x2 denom : Nat) : List Instr :=
  [.divs rt (BitVec.ofNat 64 x2), .divo rc rt (BitVec.ofNat 64 (denom + 2)), .sub rd rc,
   .divs rt (BitVec.ofNat 64 x2), .divo rc rt (BitVec.ofNat 64 (denom + 4)), .add rd rc]

/-- The client sends one command and takes its response. -/
def issue (i : Instr) (s : State) : Option (State × Response) :=
  match exec i s with
  | .next t => t.responses.getLast?.map fun r => ({ t with responses := s.responses }, r)
  | .fault _ => none
  | .refused _ => none

/-- The client sends commands one after another, going on only from status `OK`. -/
def issueAll : List Instr → State → Option State
  | [], s => some s
  | i :: is, s =>
    match issue i s with
    | some (t, r) => if r.status = .ok then issueAll is t else none
    | none => none

/-- The loop of `ARCTAN`: it leaves when `ISZ rt` answers 1, the only exit of R101; `fuel` bounds the
passes, and the answer is the state and the last `denom`. -/
def arctanLoop (rd rt rc x2 : Nat) : Nat → Nat → State → Option (State × Nat)
  | 0, _, _ => none
  | fuel + 1, denom, s =>
    match issue (.isz rt) s with
    | none => none
    | some (t, r) =>
      if r.status ≠ .ok then none
      else if r.data = 1 then some (t, denom)
      else
        match issueAll (arctanPass rd rt rc x2 denom) t with
        | none => none
        | some u => arctanLoop rd rt rc x2 fuel (denom + 4) u

/-- `ARCTAN rd, rt, rc, x` (R101). -/
def arctan (fuel rd rt rc x : Nat) (s : State) : Option (State × Nat) :=
  match issueAll (arctanStart rd rt (BitVec.ofNat 64 x)) s with
  | none => none
  | some t => arctanLoop rd rt rc (x * x) fuel 1 t

/-- `MACHIN`: `firstScale` is `[4]` for the document's literal steps and `[4, 4]` for Machin's
formula (R102, spec/90_conflicts.md C6). -/
def machin (fuel : Nat) (firstScale : List Scalar) (s : State) : Option State :=
  match arctan fuel 0 2 3 5 s with
  | none => none
  | some (t, _) =>
    match issueAll (firstScale.map (Instr.scale 0)) t with
    | none => none
    | some u =>
      match arctan fuel 1 2 3 239 u with
      | none => none
      | some (v, _) => issueAll [.scale 1 4, .sub 0 1] v

end Sys2Proof.Client
end

