-- ==== Sys2Proof/Tests/Slice0.lean ====
section
/-! SUPPORT. The model's own tests. Expected values are those of spec/95_test_vectors.md (derived there by
executing the rules) and of the tables of spec/30_encoding.md; the second half shows for each obligation
with hypotheses a concrete state and operands that meet all of them. -/

namespace Sys2Proof.Tests

open Sys2Proof Sys2Proof.Machine

/-! ## Small blocks -/

/-- A number written out: its digits and its count. -/
abbrev num (dig : List Digit) (lzc : Nat) : BigNum := { dig := dig, lzc := lzc }

/-- The build of spec/95_test_vectors.md, `D = 2` and `NREG = 4`, with the given registers. -/
def small (r0 r1 r2 r3 : BigNum) : State :=
  { State.resetOf { d := 2, nreg := 4 } with regs := [r0, r1, r2, r3] }

/-- Zero of two digits. -/
abbrev zero : BigNum := num [0, 0] 2

/-- `s` with one command word at the port. -/
def send (s : State) (w : CommandWord) : State := { s with inbox := [.command w] }

/-- After one command word: the responses, register `r`, `FAULT` and `FCAUSE`. -/
def after (s : State) (w : CommandWord) (r : Nat) :
    Option (List ResponseWord × BigNum × Bool × BitVec 4) :=
  match step (send s w) with
  | .next t => some (t.responses.map Response.word, t.reg r, t.fault, t.fcause)
  | .fault _ => none
  | .refused _ => none

/-- The answer `0:0`. -/
abbrev ok : List ResponseWord := [0x0_0000000000000000]

/-! ## WellFormed: an ill-formed term for each check -/

theorem test_wf_rd_too_wide :
    [Instr.setz 16, .isz 16, .recip 16 2, .scale 16 2, .divo 16 0 2, .add 16 0, .sub 16 0, .divs 16 2,
      .copy 16 0, .rdlimb 16 0, .wrlimb 16 0 0, .rdlzc 16].all (fun i => !i.wellFormed) = true := by
  decide

theorem test_wf_rs_too_wide :
    [Instr.divo 0 16 2, .add 0 16, .sub 0 16, .copy 0 16].all (fun i => !i.wellFormed) = true := by
  decide

theorem test_wf_index_too_wide :
    [Instr.rdlimb 0 (2 ^ 20), .wrlimb 0 (2 ^ 20) 0].all (fun i => !i.wellFormed) = true := by
  decide

theorem test_wf_widest_operands :
    [Instr.setz 15, .isz 15, .recip 15 0, .scale 15 0, .divo 15 15 0, .add 15 15, .sub 15 15, .divs 15 0,
      .copy 15 15, .rdlimb 15 0xFFFFF, .wrlimb 15 0xFFFFF 0, .rdlzc 15].all Instr.wellFormed = true := by
  decide

theorem test_build_outside_bounds :
    [{ d := 0, nreg := 4 }, { d := 2 ^ 20 + 1, nreg := 4 }, { d := 2, nreg := 0 },
      { d := 2, nreg := 17 }].all (fun c : Config => !c.legal) = true := by
  decide

/-- R9: 14 bits for `D = 10000`. -/
theorem test_count_width_of_reference : Config.reference.lzw = 14 := by decide

/-! ## Decoding: a word written out from R50 and R51 for every command -/

theorem test_decode_setz :
    decode 0x000000000000000019000000 = .ok (.setz 9) ∧
    encode (.setz 9) = 0x000000000000000019000000 := ⟨rfl, rfl⟩

theorem test_decode_isz :
    decode 0x000000000000000026000000 = .ok (.isz 6) ∧
    encode (.isz 6) = 0x000000000000000026000000 := ⟨rfl, rfl⟩

theorem test_decode_recip :
    decode 0x800000000000000131000000 = .ok (.recip 1 0x8000000000000001) ∧
    encode (.recip 1 0x8000000000000001) = 0x800000000000000131000000 := ⟨rfl, rfl⟩

theorem test_decode_scale :
    decode 0x0123456789ABCDEF4C000000 = .ok (.scale 12 0x0123456789ABCDEF) ∧
    encode (.scale 12 0x0123456789ABCDEF) = 0x0123456789ABCDEF4C000000 := ⟨rfl, rfl⟩

theorem test_decode_divo :
    decode 0x00000000000000075A300000 = .ok (.divo 10 3 7) ∧
    encode (.divo 10 3 7) = 0x00000000000000075A300000 := ⟨rfl, rfl⟩

theorem test_decode_add :
    decode 0x00000000000000006A500000 = .ok (.add 10 5) ∧
    encode (.add 10 5) = 0x00000000000000006A500000 := ⟨rfl, rfl⟩

theorem test_decode_sub :
    decode 0x000000000000000075A00000 = .ok (.sub 5 10) ∧
    encode (.sub 5 10) = 0x000000000000000075A00000 := ⟨rfl, rfl⟩

theorem test_decode_divs :
    decode 0xFFFFFFFFFFFFFFFE88000000 = .ok (.divs 8 0xFFFFFFFFFFFFFFFE) ∧
    encode (.divs 8 0xFFFFFFFFFFFFFFFE) = 0xFFFFFFFFFFFFFFFE88000000 := ⟨rfl, rfl⟩

theorem test_decode_copy :
    decode 0x000000000000000091E00000 = .ok (.copy 1 14) ∧
    encode (.copy 1 14) = 0x000000000000000091E00000 := ⟨rfl, rfl⟩

theorem test_decode_rdlimb :
    decode 0x0000000000000000A7081234 = .ok (.rdlimb 7 0x81234) ∧
    encode (.rdlimb 7 0x81234) = 0x0000000000000000A7081234 := ⟨rfl, rfl⟩

theorem test_decode_wrlimb :
    decode 0x00000000DEADBEEFB4012345 = .ok (.wrlimb 4 0x12345 0xDEADBEEF) ∧
    encode (.wrlimb 4 0x12345 0xDEADBEEF) = 0x00000000DEADBEEFB4012345 := ⟨rfl, rfl⟩

theorem test_decode_rdlzc :
    decode 0x0000000000000000CB000000 = .ok (.rdlzc 11) ∧
    encode (.rdlzc 11) = 0x0000000000000000CB000000 := ⟨rfl, rfl⟩

/-- R54: the reserved values of `OPC`. -/
theorem test_decode_reserved :
    decode 0x000000000000000000000000 = .error .reservedOpcode ∧
    decode 0x0000000000000000D0000000 = .error .reservedOpcode ∧
    decode 0x0000000000000000E0000000 = .error .reservedOpcode ∧
    decode 0x0000000000000000F0000000 = .error .reservedOpcode := ⟨rfl, rfl, rfl, rfl⟩

/-- R51: a field the command does not use is not zero (`RS`, `IDX`, `K`). -/
theorem test_decode_unused_field :
    decode 0x000000000000000010100000 = .error .unusedFieldNonZero ∧
    decode 0x000000000000000010000001 = .error .unusedFieldNonZero ∧
    decode 0x000000000000000110000000 = .error .unusedFieldNonZero ∧
    decode 0x000000000000000050000001 = .error .unusedFieldNonZero ∧
    decode 0x0000000000000000B0100000 = .error .unusedFieldNonZero := ⟨rfl, rfl, rfl, rfl, rfl⟩

theorem test_assembly :
    (Instr.divo 2 1 7).assembly = "DIVO r2, r1, 7" ∧ (Instr.rdlimb 0 1).assembly = "RDLIMB r0, 1" := by
  decide

/-! ## One command each (spec/95_test_vectors.md sections 2.1 to 2.6) -/

theorem test_setz :
    after (small (num [0x5555555555555555, 0x5555555555555555] 0) zero zero zero)
      0x000000000000000010000000 0 = some (ok, zero, false, 0) := by decide

theorem test_isz_zero :
    after (small zero zero zero zero) 0x000000000000000020000000 0 =
      some ([0x0_0000000000000001], zero, false, 0) := by decide

theorem test_isz_not_zero :
    after (small zero zero zero (num [0, 0xDEADBEEF] 1)) 0x000000000000000023000000 3 =
      some ([0x0_0000000000000000], num [0, 0xDEADBEEF] 1, false, 0) := by decide

theorem test_rdlzc :
    after (small zero zero zero (num [0, 0xDEADBEEF] 1)) 0x0000000000000000C3000000 3 =
      some ([0x0_0000000000000001], num [0, 0xDEADBEEF] 1, false, 0) := by decide

theorem test_recip_239 :
    after (small zero zero zero zero) 0x00000000000000EF30000000 0 =
      some (ok, num [0x0112358E75D30336, 0xA0AB617909A3E202] 0, false, 0) := by decide

theorem test_recip_one :
    after (small (num [7, 7] 0) zero zero zero) 0x000000000000000130000000 0 =
      some (ok, zero, false, 0) := by decide

/-- 90_conflicts.md C2: old digits of the destination before the source's count become 0. -/
theorem test_divo_clears_old_digits :
    after (small zero (num [0, 9] 1) (num [0xFFFFFFFFFFFFFFFF, 0xFFFFFFFFFFFFFFFF] 0) zero)
      0x000000000000000252100000 2 = some (ok, num [0, 4] 1, false, 0) := by decide

/-- The remainder is carried over, at `D = 4` with the source's count 2. -/
theorem test_divo_four_digits :
    after
      { State.resetOf { d := 4, nreg := 3 } with
        regs := [num [0, 0, 0, 0] 4, num [0, 0, 5, 5] 2, num [0xAAAA, 0xBBBB, 0xCCCC, 0xDDDD] 0] }
      0x000000000000000752100000 2 =
      some (ok, num [0, 0, 0, 0xB6DB6DB6DB6DB6DC] 3, false, 0) := by decide

theorem test_divs_count_grows :
    after (small zero (num [2, 0] 0) zero zero) 0x000000000000000481000000 1 =
      some (ok, num [0, 0x8000000000000000] 1, false, 0) := by decide

theorem test_divs_widest :
    after (small (num [0xFFFFFFFFFFFFFFFF, 0xFFFFFFFFFFFFFFFF] 0) zero zero zero)
      0xFFFFFFFFFFFFFFFF80000000 0 = some (ok, num [1, 1] 0, false, 0) := by decide

theorem test_scale_widest :
    after (small (num [0xFFFFFFFFFFFFFFFF, 0xFFFFFFFFFFFFFFFF] 0) zero zero zero)
      0xFFFFFFFFFFFFFFFF40000000 0 = some (ok, num [0xFFFFFFFFFFFFFFFF, 1] 0, false, 0) := by decide

theorem test_scale_count_shrinks :
    after (small (num [0, 0x4000000000000000] 1) zero zero zero) 0x000000000000000440000000 0 =
      some (ok, num [1, 0] 0, false, 0) := by decide

theorem test_add_carry_into_zero_prefix :
    after (small (num [0, 0xFFFFFFFFFFFFFFFF] 1) (num [0, 1] 1) zero zero)
      0x000000000000000060100000 0 = some (ok, num [1, 0] 0, false, 0) := by decide

theorem test_add_carry_dropped :
    after (small (num [0xFFFFFFFFFFFFFFFF, 0xFFFFFFFFFFFFFFFF] 0) (num [0, 1] 1) zero zero)
      0x000000000000000060100000 0 = some (ok, zero, false, 0) := by decide

theorem test_sub_borrow :
    after (small (num [1, 0] 0) (num [0, 1] 1) zero zero) 0x000000000000000070100000 0 =
      some (ok, num [0, 0xFFFFFFFFFFFFFFFF] 1, false, 0) := by decide

/-- The subtrahend stays; the destination is unspecified and not looked at. -/
theorem test_sub_negative :
    after (small (num [0, 5] 1) (num [1, 0] 0) zero zero) 0x000000000000000070100000 1 =
      some ([0x3_0000000000000000], num [1, 0] 0, true, 3) := by decide

theorem test_copy :
    after (small (num [0, 0xDEADBEEF] 1) zero zero zero) 0x000000000000000093000000 3 =
      some (ok, num [0, 0xDEADBEEF] 1, false, 0) := by decide

theorem test_rdlimb :
    after (small (num [0, 0xDEADBEEF] 1) zero zero zero) 0x0000000000000000A0000001 0 =
      some ([0x0_00000000DEADBEEF], num [0, 0xDEADBEEF] 1, false, 0) := by decide

theorem test_rdlimb_index_is_d :
    after (small (num [0, 0xDEADBEEF] 1) zero zero zero) 0x0000000000000000A0000002 0 =
      some ([0x4_0000000000000000], num [0, 0xDEADBEEF] 1, true, 4) := by decide

theorem test_wrlimb :
    after (small (num [0, 0xDEADBEEF] 1) zero zero zero) 0x0000000000000007B0000000 0 =
      some (ok, num [7, 0xDEADBEEF] 0, false, 0) := by decide

/-- The rescan finds the next non-zero digit. -/
theorem test_wrlimb_zero_rescans :
    after (small (num [7, 0xDEADBEEF] 0) zero zero zero) 0x0000000000000000B0000000 0 =
      some (ok, num [0, 0xDEADBEEF] 1, false, 0) := by decide

/-! ## Faults and their order (spec/95_test_vectors.md section 2.7) -/

/-- Illegal words and registers that do not exist, the checks behind them not reached. -/
theorem test_illegal_commands :
    ([0x000000000000000000000000, 0x0000000000000000D0000000, 0x0000000000000000F0000000,
      0x000000000000000014000000, 0x000000000000000010100000, 0x000000000000000010000001,
      0x000000000000000110000000, 0x000000000000000060400000, 0x000000000000000064000000,
      0x000000000000000050000001, 0x0000000000000000A5000007] : List CommandWord).all
      (fun w => after (small (num [7, 7] 0) zero zero zero) w 0 ==
        some ([0x1_0000000000000000], num [7, 7] 0, true, 1)) = true := by decide

theorem test_zero_divisor :
    after (small (num [7, 7] 0) zero zero zero) 0x000000000000000080000000 0 =
      some ([0x2_0000000000000000], num [7, 7] 0, true, 2) := by decide

/-- With `NREG = 2` the words `COPY r2, r0` and `COPY r1, r3` name a register that does not exist. -/
theorem test_two_register_build :
    ([0x000000000000000092000000, 0x000000000000000091300000] : List CommandWord).all
      (fun w => after (State.resetOf { d := 2, nreg := 2 }) w 1 ==
        some ([0x1_0000000000000000], zero, true, 1)) = true := by decide

/-- A block that is faulted answers every word `F:<FCAUSE>`. -/
theorem test_faulted_answer :
    after { small (num [0, 1] 1) zero zero zero with fault := true, fcause := 3 }
      0x000000000000000010000000 0 =
      some ([0xF_0000000000000003], num [0, 1] 1, true, 3) := by decide

theorem test_reset_input :
    step { small (num [7, 7] 0) zero zero zero with
      fault := true, fcause := 1, inbox := [.reset], responses := [⟨.faulted, 1⟩] } =
      .next (small zero zero zero zero) := rfl

/-! ## The hypotheses of the obligations can be met

One theorem for each obligation with hypotheses, named after it, with a witness for each of its clauses:
its hypotheses of one concrete state, at the ends of the ranges of its operands. -/

/-- A running block: counts 0, 1, `D` and 0. -/
def busy : State :=
  small (num [0x3333333333333333, 0x3333333333333333] 0) (num [0, 9] 1) zero
    (num [0xFFFFFFFFFFFFFFFF, 0xFFFFFFFFFFFFFFFF] 0)

/-- A block whose `SUB` into register 0 went negative; the count of register 0 is not exact. -/
def negative : State :=
  { small (num [0, 1] 0) (num [1, 0] 0) zero zero with fault := true, fcause := 3 }

/-- The checks that make a state one of a safe run, evaluated. -/
theorem running_of_checks {s : State}
    (h : (s.cfg.legal && s.limbSpaceWf && s.regs.all (fun b => decide (b.lzc < 2 ^ s.cfg.lzw)) &&
      (!s.fault) && (s.fcause == 0) && s.regs.all fun b => b.lzc == leadingZeros b.dig) = true) :
    s.Running := by
  simp only [Bool.and_eq_true, List.all_eq_true, decide_eq_true_eq, Bool.not_eq_true', beq_iff_eq] at h
  obtain ⟨⟨⟨⟨⟨hl, hs⟩, hw⟩, hf⟩, hc⟩, hz⟩ := h
  have hn := ((limbSpaceWf_iff s).1 hs).1
  refine ⟨⟨hl, hs, hw, by simp [hf, hc], by simp [hc], .inl fun r hr => ?_⟩, hf⟩
  rw [State.tracked, reg_eq_of_lt s (by omega)]
  exact hz _ (List.getElem_mem _)

theorem busy_running : busy.Running := running_of_checks (by decide)

theorem busy_send_running (w : CommandWord) : (send busy w).Running :=
  ⟨inv_congr busy_running.inv rfl rfl rfl rfl, rfl⟩

theorem negative_inv : negative.Inv where
  legalBuild := by decide
  shape := by decide
  countWidth := by decide
  faultIffCause := by decide
  knownCause := by decide
  counts := .inr ⟨rfl, 0, by
    intro r hr hne
    have hr : r < 4 := hr
    rcases (show r = 1 ∨ r = 2 ∨ r = 3 by omega) with h | h | h <;> subst h <;> rfl⟩

/-- The invariant holds after reset and in a faulted block with an inexact count. -/
theorem reset_inv : State.reset.Inv := inv_resetOf (by decide)

theorem witness_DecodeOfEncodeIsTheCommand :
    (Instr.wrlimb 15 0xFFFFF 0xFFFFFFFFFFFFFFFF).WellFormed ∧
    (Instr.divo 15 15 0xFFFFFFFFFFFFFFFF).WellFormed ∧ (Instr.setz 0).WellFormed := by decide

theorem witness_EncodeOfDecodeIsTheWord :
    decode 0x00000000DEADBEEFB4012345 = .ok (.wrlimb 4 0x12345 0xDEADBEEF) := rfl

theorem witness_DecoderAgreesWithTheOpcodeMap :
    (decode 0x000000000000000075A00000 = .ok (.sub 5 10) ∧ (Instr.sub 5 10).opcode = .sub) ∧
    Opcode.sub.spelledBy 0x000000000000000075A00000 := ⟨⟨rfl, rfl⟩, rfl⟩

theorem not_spelled_zero : ∀ op : Opcode, ¬ op.spelledBy 0 := by
  intro op; cases op <;> unfold Opcode.spelledBy <;> decide

theorem witness_IllegalWordsRaiseIllegalCommand :
    (send busy 0).inbox = .command 0 :: [] ∧ (send busy 0).fault = false ∧
    (∀ op : Opcode, ¬ op.spelledBy 0) ∧
    (opcField 0x000000000000000010100000 = Opcode.setz.code ∧ Opcode.setz.usesRS = false ∧
      rsField 0x000000000000000010100000 ≠ 0) ∧
    (opcField 0x000000000000000050000001 = Opcode.divo.code ∧ Opcode.divo.usesIDX = false ∧
      idxField 0x000000000000000050000001 ≠ 0) ∧
    (opcField 0x000000000000000160100000 = Opcode.add.code ∧ Opcode.add.usesK = false ∧
      kField 0x000000000000000160100000 ≠ 0) :=
  ⟨rfl, rfl, not_spelled_zero, by decide, by decide, by decide⟩

/-- A word at the port; for the second clause a table word of 96 bits and a shorter one, which is a
command word only by the model's choice (log entry 14). -/
theorem witness_StepRunsTheDecodedCommand :
    (send busy 0x000000000000000060100000).inbox = .command 0x000000000000000060100000 :: [] ∧
    decode 0x000000000000000060100000 = .ok (.add 0 1) ∧
    decodeTableWord 96 0x000000000000000060100000 = some (.add 0 1) ∧
    decodeTableWord 32 0x10000000 = some (.setz 0) := ⟨rfl, rfl, rfl, rfl⟩

theorem witness_IdleAndTakenResponses :
    busy.inbox = [] ∧
    ({ busy with inbox := [.takeResponse], responses := [⟨.ok, 1⟩, ⟨.ok, 0⟩] } : State).inbox =
      .takeResponse :: [] ∧
    ({ busy with inbox := [.takeResponse], responses := [⟨.ok, 1⟩, ⟨.ok, 0⟩] } : State).responses =
      ⟨.ok, 1⟩ :: [⟨.ok, 0⟩] := ⟨rfl, rfl, rfl⟩

theorem witness_EachCommandAddsOneResponse :
    ({ negative with inbox := [.command 0, .takeResponse, .reset] } : State).inbox =
      .command 0 :: [.takeResponse, .reset] := rfl

/-- Status 15, status 4, and status 0 for `ISZ`, `RDLZC`, `RDLIMB` and `ADD`. -/
theorem witness_ResponsesHoldWhatTheResponseTableSays :
    (∃ t, step (send negative 0) = .next t ∧
      t.responses = (send negative 0).responses ++ [⟨.faulted, 3⟩]) ∧
    (∃ t, step (send busy 0x0000000000000000A0000002) = .next t ∧
      t.responses = (send busy 0x0000000000000000A0000002).responses ++ [⟨.indexRange, 0⟩]) ∧
    (∃ t, step (send busy 0x000000000000000022000000) = .next t ∧
      decode 0x000000000000000022000000 = .ok (.isz 2) ∧
      t.responses = (send busy 0x000000000000000022000000).responses ++ [⟨.ok, 1⟩]) ∧
    (∃ t, step (send busy 0x0000000000000000C1000000) = .next t ∧
      decode 0x0000000000000000C1000000 = .ok (.rdlzc 1) ∧
      t.responses = (send busy 0x0000000000000000C1000000).responses ++ [⟨.ok, 1⟩]) ∧
    (∃ t, step (send busy 0x0000000000000000A1000001) = .next t ∧
      decode 0x0000000000000000A1000001 = .ok (.rdlimb 1 1) ∧
      t.responses = (send busy 0x0000000000000000A1000001).responses ++ [⟨.ok, 9⟩]) ∧
    (∃ t, step (send busy 0x000000000000000060100000) = .next t ∧
      decode 0x000000000000000060100000 = .ok (.add 0 1) ∧ (Instr.add 0 1).opcode ≠ .isz ∧
      (Instr.add 0 1).opcode ≠ .rdlzc ∧ (Instr.add 0 1).opcode ≠ .rdlimb ∧
      t.responses = (send busy 0x000000000000000060100000).responses ++ [⟨.ok, 0⟩]) :=
  ⟨⟨_, rfl, rfl⟩, ⟨_, rfl, rfl⟩, ⟨_, rfl, rfl, rfl⟩, ⟨_, rfl, rfl, rfl⟩, ⟨_, rfl, rfl, rfl⟩,
    ⟨_, rfl, rfl, by decide, by decide, by decide, rfl⟩⟩

/-- A faulted block; an illegal word; a register, an index and a divisor that fail at the end of their
range; `ADD` and a negative `SUB` that pass every check. -/
theorem witness_ChecksFireInTheDecodeOrder :
    (send negative 0).fault = true ∧ (send busy 0).fault = false ∧ (∀ op : Opcode, ¬ op.spelledBy 0) ∧
    (Opcode.add.spelledBy 0x000000000000000060400000 ∧
      busy.cfg.nreg ≤ (rsField 0x000000000000000060400000).toNat ∧ Opcode.add.usesRS = true) ∧
    (Opcode.rdlimb.spelledBy 0x0000000000000000A3000002 ∧
      ¬ busy.cfg.nreg ≤ (rdField 0x0000000000000000A3000002).toNat ∧
      busy.cfg.d ≤ (idxField 0x0000000000000000A3000002).toNat) ∧
    (Opcode.divs.spelledBy 0x000000000000000083000000 ∧
      ¬ busy.cfg.nreg ≤ (rdField 0x000000000000000083000000).toNat ∧ Opcode.divs.divides = true ∧
      kField 0x000000000000000083000000 = 0) ∧
    (Opcode.sub.spelledBy 0x000000000000000073000000 ∧
      ¬ busy.cfg.nreg ≤ (rdField 0x000000000000000073000000).toNat ∧
      ¬ busy.cfg.nreg ≤ (rsField 0x000000000000000073000000).toNat ∧
      Opcode.sub.usesIDX = false ∧ Opcode.sub.divides = false) :=
  ⟨rfl, rfl, not_spelled_zero, ⟨rfl, by decide, rfl⟩, ⟨rfl, by decide, by decide⟩,
    ⟨rfl, by decide, rfl, rfl⟩, ⟨rfl, by decide, by decide, rfl, rfl⟩⟩

/-- A step that raises each cause, and one that raises none. -/
theorem witness_FaultsAreRaisedExactlyWhenListed :
    (∀ w, (send busy w).Running ∧ (send busy w).inbox = .command w :: []) ∧
    (∃ t, step (send busy 0x000000000000000014000000) = .next t ∧ t.fcause = 1) ∧
    (∃ t, step (send busy 0x000000000000000030000000) = .next t ∧ t.fcause = 2) ∧
    (∃ t, step (send busy 0x000000000000000071000000) = .next t ∧ t.fcause = 3 ∧
      (0 : Nat) ≠ (rdField 0x000000000000000071000000).toNat) ∧
    (∃ t, step (send busy 0x0000000000000000B0000002) = .next t ∧ t.fcause = 4) ∧
    (∃ t, step (send busy 0x0000000000000000B0000001) = .next t ∧ t.fcause = 0) :=
  ⟨fun w => ⟨busy_send_running w, rfl⟩, ⟨_, rfl, rfl⟩, ⟨_, rfl, rfl⟩, ⟨_, rfl, rfl, by decide⟩,
    ⟨_, rfl, rfl⟩, ⟨_, rfl, rfl⟩⟩

theorem witness_RaisingAFaultRecordsOnlyItsCause :
    (∀ w, (send busy w).inbox = .command w :: [] ∧ (send busy w).fault = false) ∧
    (∃ t, step (send busy 0) = .next t ∧ t.fault = true ∧ t.fcause = Cause.illegalCommand.code) ∧
    (∃ t, step (send busy 0x000000000000000071000000) = .next t ∧ t.fault = true ∧
      t.fcause = Cause.negativeResult.code) :=
  ⟨fun _ => ⟨rfl, rfl⟩, ⟨_, rfl, rfl, rfl⟩, ⟨_, rfl, rfl, rfl⟩⟩

theorem witness_FaultStateRefusesEveryCommandUntilReset :
    ((send negative 0).fault = true ∧ (send negative 0).inbox = .command 0 :: []) ∧
    (∃ t, ({ negative with inbox := [.reset] } : State).fault = true ∧
      step { negative with inbox := [.reset] } = .next t ∧ t.fault = false) :=
  ⟨⟨rfl, rfl⟩, ⟨_, rfl, rfl, rfl⟩⟩

theorem witness_FaultCauseKeepsTheFirstUntilReset :
    (∃ t, (send negative 0).fault = true ∧ step (send negative 0) = .next t) ∧
    (∃ t, ({ negative with inbox := [.reset] } : State).fault = true ∧
      step { negative with inbox := [.reset] } = .next t) :=
  ⟨⟨_, rfl, rfl⟩, ⟨_, rfl, rfl⟩⟩

theorem witness_ResetLeavesEveryRegisterZero :
    ({ negative with inbox := [.reset, .command 0] } : State).inbox = .reset :: [.command 0] ∧
    3 < State.reset.cfg.nreg ∧ 9999 < State.reset.cfg.d := by decide

theorem witness_ResetAbandonsTheCommandBeforeIt :
    ({ negative with inbox := [.reset] } : State).inbox = .reset :: [] ∧
    ∃ t, ({ busy with inbox := [.command 0x000000000000000071000000, .reset] } : State).inbox =
        .command 0x000000000000000071000000 :: .reset :: [] ∧
      step { busy with inbox := [.command 0x000000000000000071000000, .reset] } = .next t :=
  ⟨rfl, _, rfl, rfl⟩

/-- Two faulted blocks with different registers; two running ones with different free values to come,
on which the same `SUB` goes negative. -/
theorem witness_UnspecifiedRegisterIsNeverObserved :
    (∃ s' t', State.Alike (send negative 0)
        { send negative 0 with regs := (send negative 0).regs.set 0 (num [7, 7] 0) } ∧
      step (send negative 0) = .next s' ∧
      step { send negative 0 with regs := (send negative 0).regs.set 0 (num [7, 7] 0) } = .next t') ∧
    (∃ s' t', State.Alike (send busy 0x000000000000000071000000)
        { send busy 0x000000000000000071000000 with freeTick := 5 } ∧
      step (send busy 0x000000000000000071000000) = .next s' ∧
      step { send busy 0x000000000000000071000000 with freeTick := 5 } = .next t') :=
  ⟨⟨_, _, ⟨rfl, rfl, rfl, rfl, rfl, fun h => absurd h (by decide)⟩, rfl, rfl⟩,
    ⟨_, _, ⟨rfl, rfl, rfl, rfl, rfl, fun _ => rfl⟩, rfl, rfl⟩⟩

theorem witness_CommandsNamingNoRegisterAreIllegal :
    busy.fault = false ∧ busy.cfg.nreg ≤ 4 ∧ ¬ busy.cfg.nreg ≤ 3 ∧ negative.fault = true := by decide

/-- The ends of the bounds of R9. -/
theorem witness_InvariantHoldsAfterReset :
    ({ d := 1, nreg := 1 } : Config).legal = true ∧ ({ d := 2 ^ 20, nreg := 16 } : Config).legal = true := by
  decide

theorem witness_EveryStepKeepsTheInvariant :
    (∃ t, negative.Inv ∧ step negative = .next t) ∧
    (∃ t, (send busy 0x000000000000000071000000).Inv ∧
      step (send busy 0x000000000000000071000000) = .next t) :=
  ⟨⟨_, negative_inv, rfl⟩, ⟨_, (busy_send_running _).inv, rfl⟩⟩

theorem witness_CountsAreExactAndOnlyTheDestinationChanges :
    3 < State.reset.cfg.nreg ∧
    ∃ t, (send busy 0x000000000000000481000000).Running ∧
      (send busy 0x000000000000000481000000).inbox = .command 0x000000000000000481000000 :: [] ∧
      step (send busy 0x000000000000000481000000) = .next t ∧ t.fault = false ∧ 3 < t.cfg.nreg ∧
      (3 : Nat) ≠ (rdField 0x000000000000000481000000).toNat :=
  ⟨by decide, ⟨_, busy_send_running _, rfl, rfl, rfl, by decide, by decide⟩⟩

theorem witness_NoStepChangesTheBuild :
    ∃ t, step { negative with inbox := [.reset] } = .next t := ⟨_, rfl⟩

/-- The first digit, the last digit, and no non-zero digit. -/
theorem witness_LeadingZerosIsTheFirstNonzeroIndex :
    (0 < ([1, 0] : List Digit).length ∧ leadingZeros [1, 0] = 0) ∧
    (1 < ([0, 9] : List Digit).length ∧ leadingZeros [0, 9] = 1) ∧
    1 ≤ ([0, 0] : List Digit).length ∧ leadingZeros [0, 0] = ([0, 0] : List Digit).length := by decide

theorem witness_CountBoundsTheNumerator :
    (0 < ([1, 0] : List Digit).length ∧ leadingZeros [1, 0] = 0) ∧
    (1 < ([0, 9] : List Digit).length ∧ leadingZeros [0, 9] = 1) := by decide

theorem witness_NumeratorDeterminesTheDigits :
    ([1, 0] : List Digit).length = ([1, 0] : List Digit).length ∧
    numerator [1, 0] = numerator [1, 0] := ⟨rfl, rfl⟩

/-- Serves every obligation of a running block and one register: register 0 and the last one. -/
theorem witness_SetzMakesTheRegisterZero :
    busy.Running ∧ 0 < busy.cfg.nreg ∧ 3 < busy.cfg.nreg := ⟨busy_running, by decide, by decide⟩

theorem witness_IszAnswersWhetherTheRegisterIsZero :
    busy.Running ∧ 2 < busy.cfg.nreg ∧ (busy.reg 2).lzc = busy.cfg.d ∧ (busy.reg 1).lzc ≠ busy.cfg.d :=
  ⟨busy_running, by decide, by decide, by decide⟩

theorem witness_RdlzcAnswersTheCount :
    busy.Running ∧ 1 < busy.cfg.nreg ∧ 2 < busy.cfg.nreg := ⟨busy_running, by decide, by decide⟩

/-- The least and the greatest divisor, each with its greatest remainder. -/
theorem witness_DivisionStepFitsItsWidths :
    (1 ≤ 1 ∧ 1 ≤ base - 1 ∧ 0 < 1) ∧ (1 ≤ base - 1 ∧ base - 1 ≤ base - 1 ∧ base - 2 < base - 1) := by
  decide

theorem witness_RecipFollowsLongDivision :
    busy.Running ∧ 3 < busy.cfg.nreg ∧ (0 : Scalar) = 0 ∧ (1 : Scalar) ≠ 0 ∧ 2 ≤ (2 : Scalar).toNat ∧
    1 < busy.cfg.d := ⟨busy_running, by decide, rfl, by decide, by decide, by decide⟩

theorem witness_RecipIsTheTruncatedReciprocal :
    busy.Running ∧ 3 < busy.cfg.nreg ∧ (1 : Scalar).toNat = 1 ∧ 2 ≤ (2 : Scalar).toNat ∧
    2 ≤ (0xFFFFFFFFFFFFFFFF : Scalar).toNat := ⟨busy_running, by decide, by decide, by decide, by decide⟩

/-- The zero and a non-zero divisor; a source with count 0, 1 and `D`; one register for both. -/
theorem witness_DivoFollowsLongDivision :
    busy.Running ∧ 3 < busy.cfg.nreg ∧ 1 < busy.cfg.nreg ∧ (0 : Scalar) = 0 ∧ (7 : Scalar) ≠ 0 ∧
    0 < (busy.reg 1).lzc ∧ (busy.reg 1).lzc ≤ 1 ∧ 1 < busy.cfg.d ∧
    (busy.reg 2).lzc = busy.cfg.d ∧ (busy.reg 0).lzc = 0 :=
  ⟨busy_running, by decide, by decide, rfl, by decide, by decide, by decide, by decide, by decide,
    by decide⟩

theorem witness_DivsFollowsLongDivision :
    busy.Running ∧ 1 < busy.cfg.nreg ∧ (0 : Scalar) = 0 ∧ (0xFFFFFFFFFFFFFFFF : Scalar) ≠ 0 ∧
    0 < (busy.reg 1).lzc ∧ (busy.reg 1).lzc ≤ 1 ∧ 1 < busy.cfg.d :=
  ⟨busy_running, by decide, rfl, by decide, by decide, by decide, by decide⟩

theorem witness_DivisionTakesTheFloor :
    busy.Running ∧ 3 < busy.cfg.nreg ∧ 0 < busy.cfg.nreg ∧ (1 : Scalar) ≠ 0 ∧
    (0xFFFFFFFFFFFFFFFF : Scalar) ≠ 0 :=
  ⟨busy_running, by decide, by decide, by decide, by decide⟩

/-- A source that is zero; a leading digit equal to the divisor; one just below it. -/
theorem witness_DivisionMovesTheCountByAtMostOne :
    busy.Running ∧ 3 < busy.cfg.nreg ∧
    (∃ t, exec (.divo 3 2 9) busy = .next t ∧ (busy.reg 2).lzc = busy.cfg.d) ∧
    (∃ t, exec (.divo 3 1 9) busy = .next t ∧ (busy.reg 1).lzc < busy.cfg.d ∧
      (9 : Scalar).toNat ≤ (busy.limbRead 1 (busy.reg 1).lzc).toNat) ∧
    (∃ t, exec (.divo 3 1 10) busy = .next t ∧ (busy.reg 1).lzc < busy.cfg.d ∧
      (busy.limbRead 1 (busy.reg 1).lzc).toNat < (10 : Scalar).toNat) :=
  ⟨busy_running, by decide, ⟨_, rfl, by decide⟩, ⟨_, rfl, by decide, by decide⟩,
    ⟨_, rfl, by decide, by decide⟩⟩

/-- A running and a faulted block. -/
theorem witness_DivoOntoItselfIsDivs : busy.Inv ∧ negative.Inv := ⟨busy_running.inv, negative_inv⟩

theorem witness_TwoDivisionsAreOneByTheProduct :
    busy.Running ∧ 3 < busy.cfg.nreg ∧ (1 : Scalar) ≠ 0 ∧ (0xFFFFFFFFFFFFFFFF : Scalar) ≠ 0 :=
  ⟨busy_running, by decide, by decide, by decide⟩

/-- Two registers, and one register for both. -/
theorem witness_QuotientCanBeSubtracted :
    busy.Running ∧ 3 < busy.cfg.nreg ∧ 0 < busy.cfg.nreg ∧ (1 : Scalar) ≠ 0 ∧ (3 : Nat) ≠ 0 ∧
    (3 : Nat) = 3 := ⟨busy_running, by decide, by decide, by decide, by decide, rfl⟩

theorem witness_RepeatedDivisionReachesZero :
    busy.Running ∧ 3 < busy.cfg.nreg ∧ 2 ≤ (2 : Scalar).toNat :=
  ⟨busy_running, by decide, by decide⟩

/-- A count strictly between 0 and `D`. -/
theorem witness_SkippingKnownZerosChangesNothing :
    busy.Running ∧ 1 < busy.cfg.nreg ∧ (7 : Scalar) ≠ 0 ∧ (busy.reg 1).lzc = 1 :=
  ⟨busy_running, by decide, by decide, by decide⟩

theorem witness_ScaleFollowsTheCarryLoop :
    busy.Running ∧ 3 < busy.cfg.nreg ∧ 0 < busy.cfg.d := ⟨busy_running, by decide, by decide⟩

theorem witness_ScaleMultipliesModuloTheRange :
    busy.Running ∧ 3 < busy.cfg.nreg ∧ 0 < busy.cfg.nreg := ⟨busy_running, by decide, by decide⟩

/-- The bound of the third clause at `k = 1`. -/
theorem witness_ScaleIntermediateFitsItsWidth : 1 ≤ (1 : Scalar).toNat := by decide

/-- Two registers, and one register for both operands. -/
theorem witness_AddFollowsTheCarryLoop :
    busy.Running ∧ 0 < busy.cfg.nreg ∧ 3 < busy.cfg.nreg := ⟨busy_running, by decide, by decide⟩

theorem witness_AddSumsModuloTheRange :
    busy.Running ∧ 0 < busy.cfg.nreg ∧ 3 < busy.cfg.nreg := ⟨busy_running, by decide, by decide⟩

/-- Both counts at least 1; no carry out with the smaller count 0. -/
theorem witness_AddLowersTheCountByAtMostOne :
    busy.Running ∧ 1 < busy.cfg.nreg ∧ 2 < busy.cfg.nreg ∧
    (∃ t, exec (.add 1 2) busy = .next t ∧ 1 ≤ min (busy.reg 1).lzc (busy.reg 2).lzc) ∧
    (∃ t, exec (.add 0 1) busy = .next t ∧ busy.num 0 + busy.num 1 < base ^ busy.cfg.d ∧
      min (busy.reg 0).lzc (busy.reg 1).lzc = 0) :=
  ⟨busy_running, by decide, by decide, ⟨_, rfl, by decide⟩, ⟨_, rfl, by decide, by decide⟩⟩

/-- A difference that is positive, one that is zero, and one that is negative. -/
theorem witness_SubFollowsTheBorrowLoop :
    busy.Running ∧ 3 < busy.cfg.nreg ∧ 0 < busy.cfg.nreg ∧
    (subDigits (busy.reg 3).dig (busy.reg 0).dig).2 ≠ 0 ∧
    (subDigits (busy.reg 0).dig (busy.reg 0).dig).2 ≠ 0 ∧
    (subDigits (busy.reg 0).dig (busy.reg 3).dig).2 = 0 :=
  ⟨busy_running, by decide, by decide, by decide, by decide, by decide⟩

theorem witness_SubSubtractsWhenNotNegative :
    busy.Running ∧ 3 < busy.cfg.nreg ∧ 0 < busy.cfg.nreg ∧ busy.num 0 ≤ busy.num 3 ∧
    busy.num 0 ≤ busy.num 0 := ⟨busy_running, by decide, by decide, by decide, by decide⟩

theorem witness_SubOfALargerNumberFaults :
    busy.Running ∧ 1 < busy.cfg.nreg ∧ 0 < busy.cfg.nreg ∧ (busy.reg 0).lzc < (busy.reg 1).lzc ∧
    busy.num 1 < busy.num 0 := ⟨busy_running, by decide, by decide, by decide, by decide⟩

/-- A sum without and with a carry out; one register for both operands. -/
theorem witness_AddThenSubRestoresOrFaults :
    busy.Running ∧ 3 < busy.cfg.nreg ∧ 1 < busy.cfg.nreg ∧ 0 < busy.cfg.nreg ∧
    ((0 : Nat) ≠ 1 ∧ busy.num 0 + busy.num 1 < base ^ busy.cfg.d) ∧
    ((3 : Nat) ≠ 1 ∧ base ^ busy.cfg.d ≤ busy.num 3 + busy.num 1) ∧ (3 : Nat) = 3 :=
  ⟨busy_running, by decide, by decide, by decide, by decide, by decide, rfl⟩

/-- A running and a faulted block. -/
theorem witness_AddAndSubOfOneRegister : busy.Inv ∧ negative.Inv := ⟨busy_running.inv, negative_inv⟩

theorem witness_CopyCopiesDigitsAndCount :
    busy.Running ∧ 3 < busy.cfg.nreg ∧ 0 < busy.cfg.nreg ∧ 1 < busy.cfg.d ∧ (3 : Nat) = 3 :=
  ⟨busy_running, by decide, by decide, by decide, rfl⟩

/-- The first index out of range, the last one in range, and one before the count. -/
theorem witness_RdlimbAnswersTheDigit :
    busy.Running ∧ 1 < busy.cfg.nreg ∧ busy.cfg.d ≤ 2 ∧ 1 < busy.cfg.d ∧ 0 < (busy.reg 1).lzc :=
  ⟨busy_running, by decide, by decide, by decide, by decide⟩

theorem witness_WrlimbWritesOneDigit :
    busy.Running ∧ 1 < busy.cfg.nreg ∧ busy.cfg.d ≤ 2 ∧ 0 < busy.cfg.d ∧ (7 : Digit) ≠ 0 ∧
    0 < (busy.reg 1).lzc ∧ (1 : Nat) ≠ 0 :=
  ⟨busy_running, by decide, by decide, by decide, by decide, by decide, by decide⟩

end Sys2Proof.Tests
end

section
/-! PROOFS. The reset values (spec/10_state.md R29). -/

namespace Sys2Proof.Machine

/-- Where every register is zero, every register number reads as zero, also one that names no
register (log entry 10). -/
theorem reg_of_regs_zero {t : State}
    (hz : t.regs = List.replicate t.cfg.nreg (BigNum.zero t.cfg.d)) (r : Nat) :
    t.reg r = BigNum.zero t.cfg.d := by
  rw [State.reg, hz, List.getElem?_replicate]
  split <;> rfl

theorem limbRead_of_reg_zero {t : State} {r d : Nat} (hr : t.reg r = BigNum.zero d) (i : Nat) :
    t.limbRead r i = 0 := by
  rw [State.limbRead, hr, BigNum.zero, List.getElem?_replicate]
  split <;> rfl

@[simp] theorem isZero_zero (d : Nat) : (BigNum.zero d).isZero d = true := by
  simp [BigNum.isZero, BigNum.zero]

/-- The reset input at the port (R140). -/
theorem step_reset {s : State} {rest : List Input} (hi : s.inbox = .reset :: rest) :
    step s = .next (s.assertReset rest) := by
  simp only [step, handleInput, hi]

/-- Settles O17: the reset states, and the state the reset input leaves, hold the zero of the build
in every register and no fault; R29 reads off a state of that kind. -/
theorem resetLeavesEveryRegisterZero : Obligations.ResetLeavesEveryRegisterZero := by
  unfold Obligations.ResetLeavesEveryRegisterZero
  intro isReset
  have of_zero : ∀ t : State, t.regs = List.replicate t.cfg.nreg (BigNum.zero t.cfg.d) →
      t.fault = false → t.fcause = 0 → isReset t := by
    intro t hz hf hc
    have hreg := reg_of_regs_zero hz
    have shape : t.limbSpaceWf = true := by
      rw [limbSpaceWf_congr (s := State.resetOf t.cfg) (t := t) rfl hz, limbSpaceWf_resetOf]
    obtain ⟨hlen, hdig⟩ := (limbSpaceWf_iff t).mp shape
    refine ⟨fun r _ => ⟨fun i _ => limbRead_of_reg_zero (hreg r) i, ?_, ?_⟩, hlen, hdig, hf, hc⟩
    · rw [hreg r, BigNum.zero]
    · rw [hreg r, isZero_zero]
  have of_build (cfg : Config) : isReset (State.resetOf cfg) := of_zero _ rfl rfl rfl
  exact ⟨of_build, of_build Config.reference, fun s rest hi =>
    ⟨s.assertReset rest, step_reset hi, of_zero _ rfl rfl rfl⟩⟩

end Sys2Proof.Machine
end

section
/-! PROOFS. The command format, the opcode map and the decode order (spec/30_encoding.md R50, R53,
R54, R55 and R59). -/

namespace Sys2Proof

/-! ## The fields of a command word -/

/-- A field of `n` bits from bit `i` up, as a number. -/
theorem extractLsb'_toNat_eq_div_mod (w : CommandWord) (i n : Nat) :
    (w.extractLsb' i n).toNat = w.toNat / 2 ^ i % 2 ^ n := by
  rw [BitVec.extractLsb'_toNat, Nat.shiftRight_eq_div_pow]

/-- Settles O3: a field is the quotient by its lowest bit's weight, cut to its width; `K` reaches to
the top of the word and `IDX` starts at its bottom. -/
theorem fieldsStandWhereTheCommandFormatPutsThem :
    Obligations.FieldsStandWhereTheCommandFormatPutsThem := by
  intro w
  have hK : w.toNat / 2 ^ 32 < 2 ^ 64 := by have := w.isLt; omega
  refine ⟨?_, extractLsb'_toNat_eq_div_mod w 28 4, extractLsb'_toNat_eq_div_mod w 24 4,
    extractLsb'_toNat_eq_div_mod w 20 4, ?_⟩
  · rw [kField, extractLsb'_toNat_eq_div_mod, Nat.mod_eq_of_lt hK]
  · rw [idxField, extractLsb'_toNat_eq_div_mod, Nat.pow_zero, Nat.div_one]

/-! ## The opcode map and the illegal words -/

/-- The rows of the opcode map are disjoint: they differ in `OPC` (R53). -/
theorem spelledBy_unique {w : CommandWord} {op op' : Opcode} (h : op.spelledBy w)
    (h' : op'.spelledBy w) : op = op' := by
  obtain ⟨hc, -⟩ := (spelledBy_iff op w).1 h
  obtain ⟨hc', -⟩ := (spelledBy_iff op' w).1 h'
  exact Opcode.code_inj (hc.symm.trans hc')

/-- Settles O4: the decoder answers OK exactly to the words of a row, with a command of that row, and
the rows are disjoint. -/
theorem decoderAgreesWithTheOpcodeMap : Obligations.DecoderAgreesWithTheOpcodeMap := by
  refine ⟨fun w op => ⟨?_, fun hs => ?_⟩, fun w op op' => spelledBy_unique⟩
  · rintro ⟨i, hd, rfl⟩
    obtain ⟨op, hs, rfl⟩ := (decode_ok_iff w i).1 hd
    rwa [opcode_build]
  · exact ⟨_, (decode_ok_iff w _).2 ⟨op, hs, rfl⟩, opcode_build ..⟩

/-- The reserved values of `OPC` (R54). -/
theorem ofCode_eq_none_iff (c : BitVec 4) :
    Opcode.ofCode c = none ↔ c = 0x0 ∨ c = 0xD ∨ c = 0xE ∨ c = 0xF := by
  revert c; decide

theorem unusedFieldsZero_eq_false_iff (op : Opcode) (w : CommandWord) :
    unusedFieldsZero op w = false ↔
      (op.usesRS = false ∧ rsField w ≠ 0) ∨ (op.usesIDX = false ∧ idxField w ≠ 0) ∨
      (op.usesK = false ∧ kField w ≠ 0) := by
  rw [← Bool.not_eq_true, unusedFieldsZero_iff]
  simp only [not_and_or, not_or, Bool.not_eq_true, ne_eq]

/-- A word of no row has a reserved `OPC`, or the `OPC` of a row that its other fields miss (R54). -/
theorem not_spelledBy_iff (w : CommandWord) :
    (∀ op : Opcode, ¬ op.spelledBy w) ↔
      Opcode.ofCode (opcField w) = none ∨
      ∃ op : Opcode, opcField w = op.code ∧ unusedFieldsZero op w = false := by
  constructor
  · intro h
    cases hc : Opcode.ofCode (opcField w) with
    | none => exact .inl rfl
    | some op =>
      have hcode := Opcode.code_of_ofCode hc
      have hz : ¬ unusedFieldsZero op w = true := fun hz => h op ((spelledBy_iff op w).2 ⟨hcode, hz⟩)
      exact .inr ⟨op, hcode, by simpa using hz⟩
  · rintro h op' hs
    obtain ⟨hc', hz'⟩ := (spelledBy_iff op' w).1 hs
    rcases h with hn | ⟨op, hc, hz⟩
    · simp [hc'] at hn
    · obtain rfl := Opcode.code_inj (hc.symm.trans hc')
      simp [hz'] at hz

end Sys2Proof

namespace Sys2Proof.Machine

/-- Settles O5: the illegal words by their fields, and the step on one of them. -/
theorem illegalWordsRaiseIllegalCommand : Obligations.IllegalWordsRaiseIllegalCommand := by
  refine ⟨fun w => ?_, fun s w rest hi hf h => step_illegal hi hf h⟩
  simp only [not_spelledBy_iff, ofCode_eq_none_iff, unusedFieldsZero_eq_false_iff]

/-! ## How a command that passed its checks ends -/

/-- The `DATA` of a command that completes (R55): the answer of `ISZ`, `RDLZC` and `RDLIMB`, 0 for
every other command. -/
def answerData (s : State) : Instr → Digit
  | .isz rd => if (s.reg rd).isZero s.cfg.d then 1 else 0
  | .rdlzc rd => BitVec.ofNat 64 (s.reg rd).lzc
  | .rdlimb rd idx => s.limbRead rd idx
  | .setz .. | .recip .. | .scale .. | .divo .. | .add .. | .sub .. | .divs .. | .copy ..
  | .wrlimb .. => 0

theorem answerData_eq_zero (s : State) {i : Instr} (hz : i.opcode ≠ .isz) (hc : i.opcode ≠ .rdlzc)
    (hl : i.opcode ≠ .rdlimb) : answerData s i = 0 := by
  cases i with
  | isz => exact absurd rfl hz
  | rdlzc => exact absurd rfl hc
  | rdlimb => exact absurd rfl hl
  | _ => rfl

/-- How a command that passed the checks of R59 ends: it answers `OK` and leaves the fault status,
or it is a `SUB` that goes negative. -/
inductive Ends (i : Instr) (s t : State) : Prop where
  | completes (hf : t.fault = s.fault) (hc : t.fcause = s.fcause)
      (hr : t.responses = s.responses ++ [{ status := .ok, data := answerData s i }])
  | negative (hi : i.opcode = .sub) (hf : t.fault = true) (hc : t.fcause = 3)
      (hr : t.responses = s.responses ++ [{ status := .negativeResult, data := 0 }])

/-- A command of a row whose operand check passes runs to its end (R59 step 6). -/
theorem exec_build_passed {op : Opcode} {w : CommandWord} {s : State} (hf : s.fault = false)
    (hc : rowFault s.cfg op w = none) :
    ∃ t, exec (op.build (rdField w).toNat (rsField w).toNat (idxField w).toNat (kField w)) s =
        .next t ∧
      Ends (op.build (rdField w).toNat (rsField w).toNat (idxField w).toNat (kField w)) s t := by
  cases op <;> dsimp only [Opcode.build] <;> unfold exec
  case sub =>
    refine ⟨_, runCommand_passed hf hc, ?_⟩
    dsimp only
    split
    · exact .negative rfl rfl rfl rfl
    · exact .completes rfl rfl rfl
  all_goals exact ⟨_, runCommand_passed hf hc, .completes rfl rfl rfl⟩

/-- A faulted block refuses every command word (R59 step 1, R113). -/
theorem step_faulted {s : State} {w : CommandWord} {rest : List Input}
    (hi : s.inbox = .command w :: rest) (hf : s.fault = true) :
    step s = .next (s.accept rest).answerFaulted := by
  simp [step, handleInput, hi, handleWord, hf]

/-- Everything a command word at the port can do: be refused by a faulted block, raise the fault of a
check, or run to its end (R59). -/
theorem step_word_cases {s : State} {w : CommandWord} {rest : List Input}
    (hi : s.inbox = .command w :: rest) :
    (s.fault = true ∧ step s = .next (s.accept rest).answerFaulted) ∨
    (s.fault = false ∧ ∃ c, step s = .next ((s.accept rest).raise c)) ∨
    (s.fault = false ∧ ∃ i t, decode w = .ok i ∧ step s = .next t ∧ Ends i (s.accept rest) t) := by
  cases hf : s.fault with
  | true => exact .inl ⟨rfl, step_faulted hi hf⟩
  | false =>
    refine .inr ?_
    by_cases h : ∀ op : Opcode, ¬ op.spelledBy w
    · exact .inl ⟨rfl, _, step_illegal hi hf h⟩
    · obtain ⟨op, hs⟩ := not_forall_not.1 h
      cases hc : rowFault s.cfg op w with
      | some c => exact .inl ⟨rfl, c, (step_spelled hi hs).trans (exec_build_checked hf hc)⟩
      | none =>
        obtain ⟨t, ht, he⟩ := exec_build_passed (s := s.accept rest) hf hc
        exact .inr ⟨rfl, _, t, (decode_ok_iff w _).2 ⟨op, hs, rfl⟩,
          (step_spelled hi hs).trans ht, he⟩

/-! ## The response table and the decode order -/

/-- `STATUS` stands above the 64 bits of `DATA` in the response word (R55). -/
theorem Response.word_toNat (r : Response) :
    r.word.toNat = r.status.code.toNat * 2 ^ 64 + r.data.toNat := by
  rw [Response.word, BitVec.toNat_append, ← Nat.shiftLeft_add_eq_or_of_lt r.data.isLt,
    Nat.shiftLeft_eq]

@[simp] theorem Cause.status_code (c : Cause) : c.status.code = c.code := by cases c <;> rfl

/-- Settles O11: the response by the way the command ends, then `DATA` of a completed command by
`answerData`. -/
theorem responsesHoldWhatTheResponseTableSays :
    Obligations.ResponsesHoldWhatTheResponseTableSays := by
  refine ⟨Response.word_toNat, fun s w rest hi => ?_⟩
  rcases step_word_cases hi with ⟨hf, ht⟩ | ⟨hf, c, ht⟩ | ⟨hf, i, t, hd, ht, he⟩
  · refine ⟨_, _, ht, rfl, ?_⟩
    have hfit : s.fcause.toNat < 2 ^ 64 := by have := s.fcause.isLt; omega
    simpa [Status.code, hf] using hfit
  · refine ⟨_, _, ht, rfl, ?_⟩
    cases c <;> simp [Cause.code, hf]
  · cases he with
    | completes _ _ hr =>
      refine ⟨t, _, ht, hr, by simp [Status.code], by simp [Status.code, hf], by simp [Status.code],
        by simp [Status.code], fun _ => ?_⟩
      have eq_of_decode {j} (hj : decode w = .ok j) : i = j := by simpa [hd] using hj
      refine ⟨fun rd h => ?_, fun rd h => ?_, fun rd idx h => ?_, fun j h hz hc hl => ?_⟩
      · obtain rfl := eq_of_decode h
        simp [answerData, BigNum.isZero]
      · obtain rfl := eq_of_decode h; rfl
      · obtain rfl := eq_of_decode h; rfl
      · obtain rfl := eq_of_decode h
        exact answerData_eq_zero _ hz hc hl
    | negative _ _ hc hr =>
      exact ⟨t, _, ht, hr, by simp [Status.code, hf, hc]⟩

/-- Settles O12: a faulted block and an illegal word by the step on them, steps 3 to 5 of R59 by the
operand check of the word's row, step 6 by the ways a command that passed can end. -/
theorem checksFireInTheDecodeOrder : Obligations.ChecksFireInTheDecodeOrder := by
  intro s w rest hi s₀
  refine ⟨fun hf => step_faulted hi hf, fun hf => ⟨fun h => step_illegal hi hf h, fun op hs => ?_⟩⟩
  intro badReg badIdx zeroDivisor
  obtain ⟨hreg, hidx, hdiv, hpass⟩ := rowFault_cases s.cfg op w
  have checked {c : Cause} (hc : rowFault s.cfg op w = some c) : step s = .next (s₀.raised c) :=
    (step_spelled hi hs).trans (exec_build_checked (s := s.accept rest) hf hc)
  refine ⟨fun h => checked (hreg h), fun h h' => checked (hidx h h'),
    fun h h' h'' => checked (hdiv h h' h''), fun h h' h'' => ?_⟩
  obtain ⟨t, ht, he⟩ := exec_build_passed (s := s.accept rest) hf (hpass h h' h'')
  refine ⟨_, t, (decode_ok_iff w _).2 ⟨op, hs, rfl⟩, opcode_build .., step_spelled hi hs, ht, ?_⟩
  cases he with
  | completes hf' hc hr => exact .inl ⟨hf'.trans hf, hc, _, hr⟩
  | negative hop hf' hc hr => exact .inr ⟨(opcode_build ..).symm.trans hop, hf', hc, hr⟩

end Sys2Proof.Machine
end

section
/-! PROOFS. The leading-zero count (spec/40_zero_tracker.md R60 and R61) and the commands `SETZ`,
`ISZ` and `RDLZC` (R62 to R64). -/

namespace Sys2Proof.Machine

/-! ## The count of a digit array -/

/-- Below the length, the count is the index of a non-zero digit with only zeros before it (R60). -/
theorem leadingZeros_eq_iff {as : List Digit} {j : Nat} (hj : j < as.length) :
    leadingZeros as = j ↔ as[j]?.getD 0 ≠ 0 ∧ ∀ i, i < j → as[i]?.getD 0 = 0 := by
  constructor
  · rintro rfl
    exact ⟨getElem_at_leadingZeros as hj, fun i hi => getElem_before_leadingZeros as hi⟩
  · rintro ⟨hne, hzero⟩
    rcases Nat.lt_trichotomy (leadingZeros as) j with hlt | heq | hgt
    · exact absurd (hzero _ hlt) (getElem_at_leadingZeros as (hlt.trans hj))
    · exact heq
    · exact absurd (getElem_before_leadingZeros as hgt) hne

theorem leadingZeros_eq_length_iff {as : List Digit} :
    leadingZeros as = as.length ↔ ∀ i, i < as.length → as[i]?.getD 0 = 0 := by
  refine ⟨fun h i hi => getElem_before_leadingZeros as (h ▸ hi), fun hzero => ?_⟩
  rcases Nat.lt_or_eq_of_le (leadingZeros_le as) with hlt | heq
  · exact absurd (hzero _ hlt) (getElem_at_leadingZeros as hlt)
  · exact heq

/-- The bounds the count puts on the numerator meet at 0: below `B^0` there is only 0, and a count
below the length leaves at least a power of `B`. -/
theorem leadingZeros_eq_length_iff_numerator {as : List Digit} :
    leadingZeros as = as.length ↔ numerator as = 0 := by
  constructor
  · intro h
    have hlt := numerator_lt_of_leadingZeros as
    rw [h, Nat.sub_self, Nat.pow_zero] at hlt
    exact Nat.lt_one_iff.1 hlt
  · intro h
    rcases Nat.lt_or_eq_of_le (leadingZeros_le as) with hlt | heq
    · have hpos := (base_pow_pos _).trans_le (le_numerator_of_leadingZeros as hlt)
      exact absurd h hpos.ne'
    · exact heq

/-- Settles O25: the least index by the digits at and before the count, the length by the same two
facts and by the bounds on the numerator; the last clause is the first at index 0. -/
theorem leadingZerosIsTheFirstNonzeroIndex : Obligations.LeadingZerosIsTheFirstNonzeroIndex := by
  refine fun as => ⟨fun j hj => leadingZeros_eq_iff hj, leadingZeros_eq_length_iff,
    leadingZeros_eq_length_iff_numerator, fun hl => ?_⟩
  rw [leadingZeros_eq_iff hl]
  exact and_iff_left fun i hi => absurd hi (Nat.not_lt_zero i)

/-! ## The tracker law -/

theorem running_accept {s : State} (hs : s.Running) (rest : List Input) : (s.accept rest).Running :=
  ⟨inv_congr hs.inv rfl rfl rfl rfl, hs.noFault⟩

/-- A running block runs on after a command that ends without a fault (R61). -/
theorem exec_running {i : Instr} {s t : State} (hs : s.Running) (h : exec i s = .next t)
    (hf : t.fault = false) : t.Running := by
  refine ⟨?_, hf⟩
  rcases exec_cases h with ⟨hfault, -⟩ | ⟨-, c, -, rfl⟩ | ⟨-, he⟩
  · simp [hs.noFault] at hfault
  · simp at hf
  · cases he with
    | answer data ht => exact ht ▸ inv_respond hs.inv _ _
    | write rd b hrd hb ht => exact ht ▸ inv_respond (inv_writeReg hs hrd (hb hs)) _ _
    | negative rd rs _ _ ht => simp [ht] at hf

/-- A command keeps each register that its own rule keeps: no check touches a register (R59). -/
theorem runCommand_reg {regs : List Nat} {idx : Option Nat} {divisor : Option Scalar}
    {rule : State → State} {s t : State} {r : Nat}
    (h : runCommand regs idx divisor rule s = .next t) (hr : (rule s).reg r = s.reg r) :
    t.reg r = s.reg r := by
  rcases runCommand_cases h with ⟨-, rfl⟩ | ⟨-, c, -, -, rfl⟩ | ⟨-, -, rfl⟩
  · exact reg_answerFaulted s r
  · exact reg_raise s c r
  · exact hr

/-- No command changes a register other than its destination, also when it faults (R61, R115). -/
theorem exec_build_reg_other {op : Opcode} {rd rs idx : Nat} {k : Scalar} {s t : State} {r : Nat}
    (h : exec (op.build rd rs idx k) s = .next t) (hr : r ≠ rd) : t.reg r = s.reg r := by
  cases op <;> dsimp only [Opcode.build] at h <;> unfold exec at h
  case isz | rdlimb | rdlzc => exact runCommand_reg h (reg_respond s _ _ r)
  case sub =>
    refine runCommand_reg h ?_
    dsimp only
    split
    · exact reg_spoil_other s hr
    · exact reg_writeReg_other s _ hr
  all_goals exact runCommand_reg h (reg_writeReg_other s _ hr)

theorem step_reg_other {s t : State} {w : CommandWord} {rest : List Input}
    (hi : s.inbox = .command w :: rest) (h : step s = .next t) {r : Nat}
    (hr : r ≠ (rdField w).toNat) : t.reg r = s.reg r := by
  rcases step_command_cases hi h with ⟨-, rfl⟩ | ⟨-, -, rfl⟩ | ⟨-, i, hd, he⟩
  · exact reg_answerFaulted _ r
  · exact reg_raise _ _ r
  · obtain ⟨op, -, rfl⟩ := (decode_ok_iff w i).1 hd
    exact (exec_build_reg_other he hr).trans (reg_accept s rest r)

theorem step_running {s t : State} {w : CommandWord} {rest : List Input} (hs : s.Running)
    (hi : s.inbox = .command w :: rest) (h : step s = .next t) (hf : t.fault = false) :
    t.Running := by
  rcases step_command_cases hi h with ⟨hfault, -⟩ | ⟨-, -, rfl⟩ | ⟨-, i, -, he⟩
  · simp [hs.noFault] at hfault
  · simp at hf
  · exact exec_running (running_accept hs rest) he hf

theorem tracked_resetOf (cfg : Config) (r : Nat) : (State.resetOf cfg).tracked r := by
  rw [State.tracked, reg_of_regs_zero rfl, BigNum.zero, leadingZeros_replicate]

/-- Settles O23: the counts are exact because a block that ends a command without a fault is a
running one; the other registers by the frame of a step. -/
theorem countsAreExactAndOnlyTheDestinationChanges :
    Obligations.CountsAreExactAndOnlyTheDestinationChanges :=
  ⟨fun cfg r _ => tracked_resetOf cfg r, fun _ _ _ _ hs hi h =>
    ⟨fun hf _ hr => running_tracked (step_running hs hi h hf) hr,
      fun _ hr => step_reg_other hi h hr⟩⟩

/-! ## `SETZ`, `ISZ` and `RDLZC` -/

/-- Settles O28: `SETZ` writes the zero of the build, whose digits, count and isZero are known. -/
theorem setzMakesTheRegisterZero : Obligations.SetzMakesTheRegisterZero := by
  intro s rd hs h
  have hreg : ((s.writeReg rd (BigNum.zero s.cfg.d)).respond .ok 0).reg rd = BigNum.zero s.cfg.d :=
    reg_writeReg_same s _ (regs_length_lt hs.inv h)
  refine ⟨_, exec_setz_passed hs h, onlyWrote_writeReg s rd _,
    fun i _ => limbRead_of_reg_zero hreg i, ?_, ?_, ?_⟩ <;> rw [hreg]
  · exact List.length_replicate
  · rfl
  · exact isZero_zero _

section passed

variable {s : State} (hs : s.Running) {rd : Nat} (h : rd < s.cfg.nreg)
include hs h

theorem exec_isz_passed :
    exec (.isz rd) s = .next (s.respond .ok (if (s.reg rd).isZero s.cfg.d then 1 else 0)) := by
  unfold exec; exact runCommand_passed hs.noFault (operandFault_one h)

theorem exec_rdlzc_passed :
    exec (.rdlzc rd) s = .next (s.respond .ok (BitVec.ofNat 64 (s.reg rd).lzc)) := by
  unfold exec; exact runCommand_passed hs.noFault (operandFault_one h)

/-- A count fits the 64 bits of `DATA`: it is at most `D`, and `D` at most `2^20` (R9, R22). -/
theorem running_lzc_lt : (s.reg rd).lzc < 2 ^ 64 := by
  obtain ⟨-, hd, -⟩ := (legal_iff s.cfg).1 hs.inv.legalBuild
  have hle := running_lzc_le hs h
  omega

end passed

theorem isZero_iff (d : Nat) (b : BigNum) : b.isZero d = true ↔ b.lzc = d := beq_iff_eq

/-- Settles O29: the answer is isZero, which on a running block says that the numerator is 0. -/
theorem iszAnswersWhetherTheRegisterIsZero : Obligations.IszAnswersWhetherTheRegisterIsZero := by
  intro s rd hs h
  have hans := exec_isz_passed hs h
  have hnum := isZero_iff_num hs h
  simp only [isZero_iff] at hans hnum
  exact ⟨hans, hnum⟩

/-- Settles O30: the answer keeps the count's value, since a count fits in 64 bits. -/
theorem rdlzcAnswersTheCount : Obligations.RdlzcAnswersTheCount := by
  intro s rd hs h
  have hdata : (BitVec.ofNat 64 (s.reg rd).lzc).toNat = (s.reg rd).lzc :=
    (BitVec.toNat_ofNat _ _).trans (Nat.mod_eq_of_lt (running_lzc_lt hs h))
  refine ⟨_, exec_rdlzc_passed hs h, hdata, ?_, ?_⟩
  · exact hdata.trans_le (running_lzc_le hs h)
  · rw [hdata, isZero_iff]

end Sys2Proof.Machine
end

section
/-! PROOFS. The digit loops of `RECIP`, `DIVO` and `DIVS` (spec/41_scalar_divide.md R71 to R73). -/

namespace Sys2Proof.Machine

/-! ## The loop of a division, read from the count on -/

/-- Zero digits before the count keep the remainder 0 and give zero digits of the quotient, so the
loop of the whole array is the loop from the count on with remainder 0 (R34, R72, R73). -/
theorem divDigits_loop_from_count {d : Nat} (hd : 0 < d) (as : List Digit) :
    ∃ rem : Nat → Nat, rem (leadingZeros as) = 0 ∧
      (∀ i, i < leadingZeros as → (divDigits d 0 as)[i]?.getD 0 = 0) ∧
      ∀ i, i < as.length →
        ((divDigits d 0 as)[i]?.getD 0).toNat = (rem i * base + (as[i]?.getD 0).toNat) / d ∧
        rem (i + 1) = (rem i * base + (as[i]?.getD 0).toNat) % d := by
  obtain ⟨rem, hzero, hloop⟩ := divDigits_loop d as 0 hd
  have hlen := leadingZeros_le as
  have hrem : ∀ i, i ≤ leadingZeros as → rem i = 0 := by
    intro i hi
    induction i with
    | zero => exact hzero
    | succ i ih =>
      rw [(hloop i (by omega)).2, ih (by omega), getElem_before_leadingZeros as hi]
      simp
  refine ⟨rem, hrem _ le_rfl, fun i hi => ?_, hloop⟩
  have hdigit := (hloop i (by omega)).1
  rw [hrem i hi.le, getElem_before_leadingZeros as hi] at hdigit
  exact BitVec.eq_of_toNat_eq (by simpa using hdigit)

/-! ## A zero divisor -/

theorem operandFault_zero_divisor {cfg : Config} {regs : List Nat}
    (h : badRegister cfg regs = false) :
    operandFault cfg regs none (some 0) = some .illegalArgument := by
  simp [operandFault, h]

section

variable {s : State} (hs : s.Running) {rd rs : Nat} (h : rd < s.cfg.nreg)
include hs h

theorem exec_recip_zero : exec (.recip rd 0) s = .next (s.raised .illegalArgument) := by
  unfold exec
  exact runCommand_checked hs.noFault (operandFault_zero_divisor (by simpa using h))

theorem exec_divo_zero (h' : rs < s.cfg.nreg) :
    exec (.divo rd rs 0) s = .next (s.raised .illegalArgument) := by
  unfold exec
  exact runCommand_checked hs.noFault (operandFault_zero_divisor (by simpa using ⟨h, h'⟩))

theorem exec_divs_zero : exec (.divs rd 0) s = .next (s.raised .illegalArgument) := by
  unfold exec
  exact runCommand_checked hs.noFault (operandFault_zero_divisor (by simpa using h))

/-! ## The register after all its digits were written -/

theorem limbRead_written (ds : List Digit) (i : Nat) :
    ((s.writeDigits rd ds).respond .ok 0).limbRead rd i = ds[i]?.getD 0 := by
  rw [State.limbRead, reg_written hs.inv h]

theorem num_written (ds : List Digit) :
    ((s.writeDigits rd ds).respond .ok 0).num rd = numerator ds := by
  rw [State.num, reg_written hs.inv h]

theorem dig_written (ds : List Digit) :
    (((s.writeDigits rd ds).respond .ok 0).reg rd).dig = ds := by
  rw [reg_written hs.inv h]

theorem tracked_written (ds : List Digit) : ((s.writeDigits rd ds).respond .ok 0).tracked rd := by
  rw [State.tracked, reg_written hs.inv h]

theorem isZero_written {ds : List Digit} (hl : ds.length = s.cfg.d) :
    (((s.writeDigits rd ds).respond .ok 0).reg rd).isZero s.cfg.d = true ↔ numerator ds = 0 := by
  rw [← num_written hs h ds]
  exact isZero_iff_num (running_written hs h hl) h

end

/-! ## `RECIP`, `DIVO` and `DIVS` -/

/-- A divisor from 2 on fits below `B <= B^D`, so its reciprocal has a digit that is not 0 (R71). -/
theorem numerator_recipDigits_ne_zero {x : Scalar} (hx : 2 ≤ x.toNat) {n : Nat} (hn : 1 ≤ n) :
    numerator (recipDigits x.toNat n 1) ≠ 0 := by
  have hle : x.toNat ≤ base ^ n :=
    calc x.toNat ≤ base ^ 1 := (digit_lt_base x).le
      _ ≤ base ^ n := base_pow_le hn
  rw [recipDigits_numerator n hx, Nat.one_mul]
  exact (Nat.div_pos hle (by omega)).ne'

/-- Settles O32: the digits written are the loop's own; their numerator is not 0 from `x = 2` on, and
for `x = 1` all of them are 0. -/
theorem recipFollowsLongDivision : Obligations.RecipFollowsLongDivision := by
  intro s rd x hs h
  refine ⟨fun hx => hx ▸ exec_recip_zero hs h, fun hx => ?_⟩
  have hlen : (recipDigits x.toNat s.cfg.d 1).length = s.cfg.d := recipDigits_length _ _ _
  obtain ⟨hd, -⟩ := (legal_iff s.cfg).1 hs.inv.legalBuild
  obtain ⟨rem, hrem, hloop⟩ := recipDigits_loop x.toNat s.cfg.d 1
  refine ⟨_, rem, exec_recip_passed hs h hx, onlyWrote_writeDigits s rd _, hrem, fun i hi => ?_, ?_,
    tracked_written hs h _, fun h2 => ?_, ?_⟩
  · rw [limbRead_written hs h]
    exact hloop i hi
  · rw [dig_written hs h, hlen]
  · rw [Bool.eq_false_iff, ne_eq, isZero_written hs h hlen]
    exact numerator_recipDigits_ne_zero h2 hd
  · rintro rfl
    have hzero : recipDigits (1 : Scalar).toNat s.cfg.d 1 = List.replicate s.cfg.d 0#64 :=
      recipDigits_one s.cfg.d
    have hreg : ((s.writeDigits rd (recipDigits (1 : Scalar).toNat s.cfg.d 1)).respond .ok 0).reg rd =
        BigNum.zero s.cfg.d := by
      rw [hzero, reg_written hs.inv h, leadingZeros_replicate, BigNum.zero]
    exact ⟨hreg ▸ isZero_zero _, fun i _ => limbRead_of_reg_zero hreg i⟩

/-- Settles O34: the digits written are those of long division of the source from its count on; they
are all 0 iff the quotient of the numerators is. -/
theorem divoFollowsLongDivision : Obligations.DivoFollowsLongDivision := by
  intro s rd rs d hs h h'
  refine ⟨fun hd => hd ▸ exec_divo_zero hs h h', fun hd => ?_⟩
  have hsrc := dig_length hs.inv h'
  have hlen : (divDigits d.toNat 0 (s.reg rs).dig).length = s.cfg.d := by
    rw [divDigits_length, hsrc]
  obtain ⟨rem, hrem, hbefore, hloop⟩ := divDigits_loop_from_count (scalar_pos hd) (s.reg rs).dig
  rw [← running_tracked hs h'] at hrem hbefore
  refine ⟨_, rem, exec_divo_passed hs h h' hd, onlyWrote_writeDigits s rd _, fun i hi => ?_, hrem,
    fun i _ hi => ?_, ?_, tracked_written hs h _, ?_⟩
  · rw [limbRead_written hs h]
    exact hbefore i hi
  · rw [limbRead_written hs h]
    exact hloop i (hsrc.symm ▸ hi)
  · rw [dig_written hs h, hlen]
  · rw [isZero_written hs h hlen, divDigits_num s rs hd, Nat.div_eq_zero_iff_lt (scalar_pos hd)]

/-- Settles O35: on a running block `DIVS rd, d` ends as `DIVO rd, rd, d`, and the digits before the
count, which `DIVO` makes 0, were 0. -/
theorem divsFollowsLongDivision : Obligations.DivsFollowsLongDivision := by
  intro s rd d hs h
  refine ⟨fun hd => hd ▸ exec_divs_zero hs h, fun hd => ?_⟩
  obtain ⟨t, rem, hexec, honly, hbefore, hrest⟩ := (divoFollowsLongDivision s rd rd d hs h h).2 hd
  have hsame : exec (.divs rd d) s = exec (.divo rd rd d) s :=
    (exec_divs_passed hs h hd).trans (exec_divo_passed hs h h hd).symm
  refine ⟨t, rem, hsame.trans hexec, honly, fun i hi => ?_, hrest⟩
  rw [hbefore i hi, State.limbRead, getElem_before_leadingZeros]
  rwa [← running_tracked hs h]

end Sys2Proof.Machine
end

section
/-! PROOFS. The carry loop of `SCALE` (spec/42_scalar_multiply.md R80). -/

namespace Sys2Proof.Machine

/-- Settles O43: the digits written are the loop's own; the carry out of digit 0 is left out of the
next state, so the command completes for every `k`. -/
theorem scaleFollowsTheCarryLoop : Obligations.ScaleFollowsTheCarryLoop := by
  intro s rd k hs h
  have hsrc := dig_length hs.inv h
  obtain ⟨carry, hcarry, -, hloop⟩ := scaleDigits_loop k.toNat (s.reg rd).dig
  rw [hsrc] at hcarry hloop
  refine ⟨_, carry, exec_scale_passed hs h, onlyWrote_writeDigits s rd _, hcarry, fun i hi => ?_, ?_,
    tracked_written hs h _⟩
  · rw [limbRead_written hs h]
    exact hloop i hi
  · rw [dig_written hs h, scaleDigits_length, hsrc]

end Sys2Proof.Machine
end

section
/-! PROOFS. The carry loop of `ADD` (spec/43_add_sub.md R85) and the borrow loop of `SUB` (R87). -/

namespace Sys2Proof.Machine

/-- Two registers of a build have the same number of digits (R21). -/
theorem dig_length_eq {s : State} (hs : s.Inv) {r q : Nat} (h : r < s.cfg.nreg)
    (h' : q < s.cfg.nreg) : (s.reg r).dig.length = (s.reg q).dig.length :=
  (dig_length hs h).trans (dig_length hs h').symm

/-! ## `ADD` -/

/-- Settles O46: the digits written are the loop's own; the carry out of digit 0 is left out of the
next state. -/
theorem addFollowsTheCarryLoop : Obligations.AddFollowsTheCarryLoop := by
  intro s rd rs hs h h'
  have hdst := dig_length hs.inv h
  have hsame := dig_length_eq hs.inv h h'
  obtain ⟨carry, hcarry, -, hloop⟩ := addDigits_loop (Nat.zero_le 1) _ _ hsame
  rw [hdst] at hcarry hloop
  refine ⟨_, carry, exec_add_passed hs h h', onlyWrote_writeDigits s rd _, hcarry,
    fun i hi => ?_, ?_, tracked_written hs h _⟩
  · rw [limbRead_written hs h]
    exact hloop i hi
  · rw [dig_written hs h, addDigits_length _ _ _ hsame, hdst]

/-! ## `SUB` -/

/-- A digit of the complemented subtrahend is `B - 1` less the digit (R87). -/
theorem getElem_map_complement_toNat {bs : List Digit} {i : Nat} (hi : i < bs.length) :
    ((bs.map (~~~ ·))[i]?.getD 0).toNat = base - 1 - (bs[i]?.getD 0).toNat := by
  simp only [List.getElem?_map, List.getElem?_eq_getElem hi, Option.map_some, Option.getD_some,
    BitVec.toNat_not, base]

/-- The loop of the subtractor as equations on its digits and carries: the adder's loop from carry 1
with the complement of the second operand. -/
theorem subDigits_loop (as bs : List Digit) (h : as.length = bs.length) :
    ∃ carry : Nat → Nat, carry as.length = 1 ∧ carry 0 = (subDigits as bs).2 ∧
      ∀ i, i < as.length →
        ((subDigits as bs).1[i]?.getD 0).toNat =
          (carry (i + 1) + (as[i]?.getD 0).toNat + (base - 1 - (bs[i]?.getD 0).toNat)) % base ∧
        carry i =
          (carry (i + 1) + (as[i]?.getD 0).toNat + (base - 1 - (bs[i]?.getD 0).toNat)) / base ∧
        carry i ≤ 1 := by
  obtain ⟨carry, hfirst, hlast, hloop⟩ :=
    addDigits_loop le_rfl as (bs.map (~~~ ·)) (by rwa [List.length_map])
  refine ⟨carry, hfirst, hlast, fun i hi => ?_⟩
  rw [← getElem_map_complement_toNat (h ▸ hi)]
  exact hloop i hi

/-- Settles O49: the carries are the loop's own, and the last one tells which of the two ends of
`SUB` was taken; without a fault the digits written are the loop's and their numerator is the
difference. -/
theorem subFollowsTheBorrowLoop : Obligations.SubFollowsTheBorrowLoop := by
  intro s rd rs hs h h'
  have hdst := dig_length hs.inv h
  have hsame := dig_length_eq hs.inv h h'
  have hlen : (subDigits (s.reg rd).dig (s.reg rs).dig).1.length = s.cfg.d :=
    (subDigits_length _ _ hsame).trans hdst
  have hneg := subDigits_carry_iff hs h h'
  obtain ⟨carry, hfirst, hlast, hloop⟩ := subDigits_loop _ _ hsame
  rw [hdst] at hfirst hloop
  have hcarry := fun i hi => (hloop i hi).2
  rw [← hlast] at hneg
  by_cases hc : carry 0 = 0
  · refine ⟨_, carry, exec_sub_negative hs h h' (hlast ▸ hc), hfirst, hcarry, hneg,
      fun _ => ?_, fun hne => absurd hc hne⟩
    exact ⟨rfl, rfl, rfl, fun r hr => reg_spoil_other s hr, List.length_set, rfl, rfl⟩
  · refine ⟨_, carry, exec_sub_passed hs h h' (hlast ▸ hc), hfirst, hcarry, hneg,
      fun hz => absurd hz hc, fun _ => ?_⟩
    have hle : s.num rs ≤ s.num rd := Nat.le_of_not_lt (hneg.not.1 hc)
    refine ⟨onlyWrote_writeDigits s rd _, fun i hi => ?_, ?_, tracked_written hs h _, ?_⟩
    · rw [limbRead_written hs h]
      exact (hloop i hi).1
    · rw [dig_written hs h, hlen]
    · rw [isZero_written hs h hlen, subDigits_num hs h h' hle, Nat.sub_eq_zero_iff_le]
      exact ⟨fun hge => hge.antisymm hle, le_of_eq⟩

end Sys2Proof.Machine
end

section
/-! PROOFS. Data movement: `COPY`, `RDLIMB` and `WRLIMB` (spec/44_move_access.md R95, R97 and R98). -/

namespace Sys2Proof.Machine

/-! ## `COPY` -/

/-- Writing a register back onto itself changes no register. -/
theorem regs_writeReg_self (s : State) {r : Nat} (h : r < s.regs.length) :
    (s.writeReg r (s.reg r)).regs = s.regs := by
  rw [State.writeReg_regs, reg_eq_of_lt s h, List.set_getElem_self]

/-- Settles O54: `COPY` writes the source's whole register, so every fact about the source is one
about the destination; onto itself it writes a register back. -/
theorem copyCopiesDigitsAndCount : Obligations.CopyCopiesDigitsAndCount := by
  intro s rd rs hs h h'
  have hlt := regs_length_lt hs.inv h
  have hreg : ((s.writeReg rd (s.reg rs)).respond .ok 0).reg rd = s.reg rs :=
    reg_writeReg_same s _ hlt
  refine ⟨_, exec_copy_passed hs h h', onlyWrote_writeReg s rd _, fun i _ => ?_, ?_, ?_, ?_, ?_⟩
  · rw [State.limbRead, hreg, State.limbRead]
  · rw [hreg, dig_length hs.inv h']
  · rw [hreg]
  · rw [hreg]
  · rintro rfl
    exact regs_writeReg_self s hlt

/-! ## `RDLIMB` -/

theorem operandFault_index_range {cfg : Config} {rd i : Nat} (h : rd < cfg.nreg) (hi : cfg.d ≤ i)
    (divisor : Option Scalar) : operandFault cfg [rd] (some i) divisor = some .indexRange := by
  simp [operandFault, h, hi]

section

variable {s : State} (hs : s.Running) {rd idx : Nat} (h : rd < s.cfg.nreg)
include hs h

theorem exec_rdlimb_range (hi : s.cfg.d ≤ idx) :
    exec (.rdlimb rd idx) s = .next (s.raised .indexRange) := by
  unfold exec; exact runCommand_checked hs.noFault (operandFault_index_range h hi none)

theorem exec_rdlimb_passed (hi : idx < s.cfg.d) :
    exec (.rdlimb rd idx) s = .next (s.respond .ok (s.limbRead rd idx)) := by
  unfold exec; exact runCommand_passed hs.noFault (operandFault_one_index h hi)

theorem exec_wrlimb_range (hi : s.cfg.d ≤ idx) (v : Digit) :
    exec (.wrlimb rd idx v) s = .next (s.raised .indexRange) := by
  unfold exec; exact runCommand_checked hs.noFault (operandFault_index_range h hi none)

/-- The digits before the count of a running block's register are 0 (R23, R60). -/
theorem limbRead_before_count (hi : idx < (s.reg rd).lzc) : s.limbRead rd idx = 0 :=
  getElem_before_leadingZeros _ (running_tracked hs h ▸ hi)

end

/-- Settles O55: the index check of R59, else the answer; the digits before an exact count are 0. -/
theorem rdlimbAnswersTheDigit : Obligations.RdlimbAnswersTheDigit := fun _ _ _ hs h =>
  ⟨exec_rdlimb_range hs h, fun hi => ⟨exec_rdlimb_passed hs h hi, limbRead_before_count hs h⟩⟩

/-! ## `WRLIMB` -/

/-- A non-zero digit put among the leading zeros becomes the first non-zero one (R98). -/
theorem leadingZeros_set {as : List Digit} {j : Nat} {v : Digit} (hv : v ≠ 0)
    (hj : j < leadingZeros as) : leadingZeros (as.set j v) = j := by
  have hlen : j < as.length := hj.trans_le (leadingZeros_le as)
  rw [leadingZeros_eq_iff (by rwa [List.length_set])]
  refine ⟨?_, fun i hi => ?_⟩
  · rwa [List.getElem?_set_self hlen]
  · rw [List.getElem?_set_ne hi.ne']
    exact getElem_before_leadingZeros as (hi.trans hj)

/-- Settles O56: the index check of R59, else the array with one entry set, whose count is scanned
anew; the scan stops at a non-zero digit written before the old count. -/
theorem wrlimbWritesOneDigit : Obligations.WrlimbWritesOneDigit := by
  intro s rd idx v hs h
  refine ⟨fun hi => exec_wrlimb_range hs h hi v, fun hi => ?_⟩
  have hsrc := dig_length hs.inv h
  refine ⟨_, exec_wrlimb_passed hs h hi, onlyWrote_writeDigits s rd _, ?_, fun i hne => ?_, ?_,
    tracked_written hs h _, fun hv hcount => ?_⟩
  · rw [limbRead_written hs h, List.getElem?_set_self (hsrc ▸ hi), Option.getD_some]
  · rw [limbRead_written hs h, List.getElem?_set_ne hne.symm, State.limbRead]
  · rw [dig_written hs h, List.length_set, hsrc]
  · rw [reg_written hs.inv h]
    exact leadingZeros_set hv (running_tracked hs h ▸ hcount)

end Sys2Proof.Machine
end

section
/-! PROOFS. The fault causes, raising a fault, and the fault state (spec/60_exceptions.md R110 to
R113 and R118). -/

namespace Sys2Proof.Machine

/-! ## The fault state -/

/-- Settles O16: of the inputs a step can take, only reset touches the fault status or a register of
a faulted block. -/
theorem faultCauseKeepsTheFirstUntilReset : Obligations.FaultCauseKeepsTheFirstUntilReset := by
  intro s t hf h
  rcases step_cases h with ⟨hi, rfl⟩ | ⟨rest, hi, rfl⟩ | ⟨rest, hi, rfl⟩ | ⟨w, rest, hi, hc⟩
  · exact .inl ⟨by simp [hi], hf, rfl, rfl⟩
  · exact .inl ⟨by simp [hi], hf, rfl, rfl⟩
  · exact .inr ⟨⟨rest, hi⟩, rfl, rfl, rfl⟩
  · rcases hc with ⟨-, rfl⟩ | ⟨hf', -⟩ | ⟨hf', -⟩
    · exact .inl ⟨by simp [hi], hf, rfl, rfl⟩
    · simp [hf] at hf'
    · simp [hf] at hf'

/-- Settles O15: the answer to a command is the step of a faulted block, and a step that keeps the
fault status does not leave the fault state. -/
theorem faultStateRefusesEveryCommandUntilReset :
    Obligations.FaultStateRefusesEveryCommandUntilReset := by
  refine ⟨fun s w rest hf hi => step_faulted hi hf, fun s t hf h hleft => ?_⟩
  rcases faultCauseKeepsTheFirstUntilReset s t hf h with ⟨-, hstays, -⟩ | ⟨hreset, -, -, hz⟩
  · simp [hstays] at hleft
  · exact ⟨hreset, hz⟩

/-! ## Raising a fault -/

/-- Everything a step that raises a fault can do: raise the fault of a check with no register
changed, or spoil the destination of a `SUB` and raise `NEGATIVE_RESULT` (R112, R115). -/
theorem step_raises_cases {s t : State} {w : CommandWord} {rest : List Input}
    (hi : s.inbox = .command w :: rest) (hf : s.fault = false) (h : step s = .next t)
    (ht : t.fault = true) :
    (∃ c, c ≠ .negativeResult ∧ t = (s.accept rest).raise c) ∨
    (∃ rd, t = ((s.accept rest).spoil rd).raise .negativeResult) := by
  rcases step_command_cases hi h with ⟨hf', -⟩ | ⟨-, -, rfl⟩ | ⟨-, i, -, he⟩
  · simp [hf] at hf'
  · exact .inl ⟨_, by decide, rfl⟩
  · rcases exec_cases he with ⟨hf', -⟩ | ⟨-, hc⟩ | ⟨-, effect⟩
    · simp [hf] at hf'
    · exact .inl hc
    · cases effect with
      | answer _ e => simp [e, hf] at ht
      | write _ _ _ _ e => simp [e, hf] at ht
      | negative rd _ _ _ e => exact .inr ⟨rd, e⟩

/-- Settles O14: the state after `raise` field by field; a `SUB` that went negative, like
any command, keeps every register but its destination. -/
theorem raisingAFaultRecordsOnlyItsCause : Obligations.RaisingAFaultRecordsOnlyItsCause := by
  intro s rest t w hi hf h ht
  rcases step_raises_cases hi hf h ht with ⟨c, hc, rfl⟩ | ⟨rd, rfl⟩
  · exact ⟨c, rfl, Cause.status_code c, rfl, rfl, rfl, rfl, fun _ => ⟨rfl, rfl⟩,
      fun hneg => absurd hneg hc⟩
  · exact ⟨.negativeResult, rfl, rfl, rfl, rfl, rfl, rfl, fun hne => absurd rfl hne,
      fun _ _ => step_reg_other hi h⟩

/-! ## The condition of each check -/

theorem Cause.code_inj {c c' : Cause} : c.code = c'.code ↔ c = c' := by
  cases c <;> cases c' <;> decide

theorem usesIDX_iff (op : Opcode) : op.usesIDX = true ↔ op = .rdlimb ∨ op = .wrlimb := by
  cases op <;> decide

theorem divides_iff (op : Opcode) :
    op.divides = true ↔ op = .recip ∨ op = .divo ∨ op = .divs := by
  cases op <;> decide

/-- A register number that a command of the row uses names no register of the build (R110). -/
def namesNoRegister (cfg : Config) (op : Opcode) (w : CommandWord) : Prop :=
  cfg.nreg ≤ (rdField w).toNat ∨ (op.usesRS = true ∧ cfg.nreg ≤ (rsField w).toNat)

/-- The operand check of a row raises each cause exactly under the condition R110 lists for it: no
command has both a digit index and a divisor, so the order of the two checks does not show. -/
theorem rowFault_eq_some_iff (cfg : Config) (op : Opcode) (w : CommandWord) :
    (rowFault cfg op w = some .illegalCommand ↔ namesNoRegister cfg op w) ∧
    (rowFault cfg op w = some .illegalArgument ↔
      ¬ namesNoRegister cfg op w ∧ (op = .recip ∨ op = .divo ∨ op = .divs) ∧ kField w = 0) ∧
    (rowFault cfg op w = some .indexRange ↔
      ¬ namesNoRegister cfg op w ∧ (op = .rdlimb ∨ op = .wrlimb) ∧
        cfg.d ≤ (idxField w).toNat) := by
  have hexcl : ¬ (op.usesIDX = true ∧ op.divides = true) := by cases op <;> decide
  obtain ⟨hreg, hidx, hdiv, hpass⟩ := rowFault_cases cfg op w
  rw [← usesIDX_iff, ← divides_iff]
  by_cases hr : namesNoRegister cfg op w
  · simp [hreg hr, hr]
  by_cases hi : op.usesIDX = true ∧ cfg.d ≤ (idxField w).toNat
  · have hnd : ¬ op.divides = true := fun hd => hexcl ⟨hi.1, hd⟩
    simp [hidx hr hi, hr, hi, hnd]
  by_cases hz : op.divides = true ∧ kField w = 0
  · have hni : ¬ op.usesIDX = true := fun hu => hexcl ⟨hu, hz.1⟩
    simp [hdiv hr hi hz, hr, hz.1, hz.2, hni]
  · simpa [hpass hr hi hz, hr] using And.intro hz hi

/-- The only check of `SUB` before it executes is that of its register numbers. -/
theorem rowFault_sub_eq_none_iff (cfg : Config) (w : CommandWord) :
    rowFault cfg .sub w = none ↔ ¬ namesNoRegister cfg .sub w := by
  obtain ⟨hreg, -, -, hpass⟩ := rowFault_cases cfg .sub w
  refine ⟨fun hn hr => ?_, fun hr => hpass hr (by simp [Opcode.usesIDX]) (by simp [Opcode.divides])⟩
  simp [hreg hr] at hn

/-! ## The cause a command word leaves in `FCAUSE` -/

theorem running_fcause {s : State} (hs : s.Running) : s.fcause = 0 :=
  hs.inv.faultIffCause.1 hs.noFault

/-- Past its checks only a `SUB` of a larger number faults (R87, R110). -/
theorem exec_build_passed_fcause {op : Opcode} {w : CommandWord} {s t : State} (hs : s.Running)
    (hc : rowFault s.cfg op w = none)
    (h : exec (op.build (rdField w).toNat (rsField w).toNat (idxField w).toNat (kField w)) s =
      .next t) :
    (t.fcause = 3 ∧ op = .sub ∧ s.num (rdField w).toNat < s.num (rsField w).toNat) ∨
    (t.fcause = 0 ∧ ¬ (op = .sub ∧ s.num (rdField w).toNat < s.num (rsField w).toNat)) := by
  by_cases hop : op = .sub
  · subst hop
    have hregs := (rowFault_sub_eq_none_iff s.cfg w).1 hc
    have hrd : (rdField w).toNat < s.cfg.nreg := Nat.lt_of_not_le fun hle => hregs (.inl hle)
    have hrs : (rsField w).toNat < s.cfg.nreg :=
      Nat.lt_of_not_le fun hle => hregs (.inr ⟨rfl, hle⟩)
    have hneg := subDigits_carry_iff hs hrd hrs
    dsimp only [Opcode.build] at h
    by_cases hb : (subDigits (s.reg (rdField w).toNat).dig (s.reg (rsField w).toNat).dig).2 = 0
    · obtain rfl := Host.Outcome.next.inj ((exec_sub_negative hs hrd hrs hb).symm.trans h)
      exact .inl ⟨rfl, rfl, hneg.1 hb⟩
    · obtain rfl := Host.Outcome.next.inj ((exec_sub_passed hs hrd hrs hb).symm.trans h)
      exact .inr ⟨(running_fcause hs : s.fcause = 0), fun hlt => hb (hneg.2 hlt.2)⟩
  · obtain ⟨t', ht', ends⟩ := exec_build_passed hs.noFault hc
    obtain rfl := Host.Outcome.next.inj (ht'.symm.trans h)
    cases ends with
    | completes _ hcause _ => exact .inr ⟨hcause.trans (running_fcause hs), fun hsub => hop hsub.1⟩
    | negative hi _ _ _ => exact absurd ((opcode_build ..).symm.trans hi) hop

/-- A word belongs to one row only, so some row of it has a property iff that row has (R53). -/
theorem exists_spelledBy_iff {w : CommandWord} {op : Opcode} (hop : op.spelledBy w)
    {P : Opcode → Prop} : (∃ op' : Opcode, op'.spelledBy w ∧ P op') ↔ P op :=
  ⟨fun ⟨_, hop', hp⟩ => spelledBy_unique hop' hop ▸ hp, fun hp => ⟨op, hop, hp⟩⟩

section

variable {s t : State} {w : CommandWord} {rest : List Input} (hs : s.Running)
  (hi : s.inbox = .command w :: rest) (h : step s = .next t)
include hs hi h

/-- `FCAUSE` after a word of a row: the cause of the row's operand check, else `NEGATIVE_RESULT` of
a `SUB` of a larger number, else 0. -/
theorem step_spelled_fcause {op : Opcode} (hop : op.spelledBy w) :
    (∃ c, c ≠ .negativeResult ∧ rowFault s.cfg op w = some c ∧ t.fcause = c.code) ∨
    (rowFault s.cfg op w = none ∧ t.fcause = 3 ∧
      op = .sub ∧ s.num (rdField w).toNat < s.num (rsField w).toNat) ∨
    (rowFault s.cfg op w = none ∧ t.fcause = 0 ∧
      ¬ (op = .sub ∧ s.num (rdField w).toNat < s.num (rsField w).toNat)) := by
  rw [step_spelled hi hop] at h
  cases hc : rowFault s.cfg op w with
  | some c =>
    obtain rfl := Host.Outcome.next.inj
      ((exec_build_checked (s := s.accept rest) hs.noFault hc).symm.trans h)
    exact .inl ⟨c, fun hneg => operandFault_ne_negativeResult _ _ _ _ (hneg ▸ hc), rfl, rfl⟩
  | none =>
    rcases exec_build_passed_fcause (running_accept hs rest) hc h with hneg | hok
    · exact .inr (.inl ⟨rfl, hneg⟩)
    · exact .inr (.inr ⟨rfl, hok⟩)

/-- A cause other than `NEGATIVE_RESULT` is that of an illegal word or of the check of the word's
row. -/
theorem step_fcause_eq_code_iff {c : Cause} (hne : c ≠ .negativeResult) :
    t.fcause = c.code ↔ (c = .illegalCommand ∧ ∀ op : Opcode, ¬ op.spelledBy w) ∨
      ∃ op : Opcode, op.spelledBy w ∧ rowFault s.cfg op w = some c := by
  by_cases hw : ∀ op : Opcode, ¬ op.spelledBy w
  · obtain rfl := Host.Outcome.next.inj ((step_illegal hi hs.noFault hw).symm.trans h)
    simp [hw, Cause.code_inj, eq_comm]
  · obtain ⟨op, hop⟩ := not_forall_not.1 hw
    rw [or_iff_right fun hc => hw hc.2, exists_spelledBy_iff hop]
    rcases step_spelled_fcause hs hi h hop with ⟨c', -, hc, ht⟩ | ⟨hc, ht, -⟩ | ⟨hc, ht, -⟩
    · rw [ht, hc, Cause.code_inj, Option.some_inj]
    · have hcode : Cause.negativeResult.code ≠ c.code := fun e => hne (Cause.code_inj.1 e).symm
      exact iff_of_false (fun e => hcode (ht.symm.trans e)) (by simp [hc])
    · exact iff_of_false (fun e => code_ne_zero c (e.symm.trans ht)) (by simp [hc])

/-- `NEGATIVE_RESULT` is the cause of a `SUB` of a larger number whose registers exist (R87). -/
theorem step_fcause_eq_three_iff :
    t.fcause = 3 ↔ Opcode.sub.spelledBy w ∧ ¬ namesNoRegister s.cfg .sub w ∧
      s.num (rdField w).toNat < s.num (rsField w).toNat := by
  rw [← rowFault_sub_eq_none_iff]
  by_cases hw : ∀ op : Opcode, ¬ op.spelledBy w
  · obtain rfl := Host.Outcome.next.inj ((step_illegal hi hs.noFault hw).symm.trans h)
    simp [hw, Cause.code]
  · obtain ⟨op, hop⟩ := not_forall_not.1 hw
    rcases step_spelled_fcause hs hi h hop with ⟨c, hne, hc, ht⟩ | ⟨hc, ht, rfl, hlt⟩ | ⟨-, ht, hge⟩
    · refine iff_of_false (fun e => hne (Cause.code_inj.1 (ht.symm.trans e))) ?_
      rintro ⟨hsub, hn, -⟩
      simp [spelledBy_unique hsub hop, hc] at hn
    · exact iff_of_true ht ⟨hop, hc, hlt⟩
    · exact iff_of_false (by simp [ht]) fun ⟨hsub, _, hlt⟩ => hge ⟨spelledBy_unique hop hsub, hlt⟩

theorem step_fault_iff_fcause : t.fault = true ↔ t.fcause ≠ 0 := by
  cases hf : t.fault with
  | false => simp [running_fcause (step_running hs hi h hf)]
  | true =>
    obtain ⟨c, hc, -⟩ := raisingAFaultRecordsOnlyItsCause s rest t w hi hs.noFault h hf
    exact iff_of_true rfl (hc ▸ code_ne_zero c)

end

/-- Settles O13: the causes of the checks are those of an illegal word and of the word's one row,
`NEGATIVE_RESULT` that of a `SUB` of a larger number; the report and the registers are those of a
raised fault. -/
theorem faultsAreRaisedExactlyWhenListed : Obligations.FaultsAreRaisedExactlyWhenListed := by
  intro s w rest t hs hi h badReg
  have hcode {c : Cause} := step_fcause_eq_code_iff hs hi h (c := c)
  have hrow := rowFault_eq_some_iff s.cfg
  have hraised := raisingAFaultRecordsOnlyItsCause s rest t w hi hs.noFault h
  refine ⟨?_, ?_, step_fcause_eq_three_iff hs hi h, ?_, step_fault_iff_fcause hs hi h,
    fun hf => ?_, fun hf hne => ?_, fun _ _ => step_reg_other hi h⟩
  · refine (hcode (c := .illegalCommand) (by decide)).trans (or_congr (and_iff_right rfl) ?_)
    exact exists_congr fun op => and_congr_right fun _ =>
      let ⟨hcommand, _, _⟩ := hrow op w; hcommand
  · refine (hcode (c := .illegalArgument) (by decide)).trans ((or_iff_right (by simp)).trans ?_)
    exact exists_congr fun op => and_congr_right fun _ =>
      let ⟨_, hargument, _⟩ := hrow op w; hargument
  · refine (hcode (c := .indexRange) (by decide)).trans ((or_iff_right (by simp)).trans ?_)
    exact exists_congr fun op => and_congr_right fun _ =>
      let ⟨_, _, hindex⟩ := hrow op w; hindex
  · obtain ⟨c, hc, hstatus, hr, -⟩ := hraised hf
    exact ⟨_, hr, hstatus.trans hc.symm, rfl⟩
  · obtain ⟨c, hc, -, -, -, -, -, hregs, -⟩ := hraised hf
    refine (hregs ?_).1
    rintro rfl
    exact hne hc

end Sys2Proof.Machine
end

section
/-! PROOFS. Decoding and encoding undo each other (spec/30_encoding.md R50 to R54). -/

namespace Sys2Proof

/-! ## Encode, then decode -/

/-- The word of a command is a word of the command's own row (R53). -/
theorem spelledBy_encode (i : Instr) : i.opcode.spelledBy (encode i) := by
  open Laws.EncodedWordIsOfItsRow in
  cases i with
  | setz rd => exact setz rd
  | isz rd => exact isz rd
  | recip rd x => exact recip rd x
  | scale rd k => exact scale rd k
  | divo rd rs d => exact divo rd rs d
  | add rd rs => exact add rd rs
  | sub rd rs => exact sub rd rs
  | divs rd d => exact divs rd d
  | copy rd rs => exact copy rd rs
  | rdlimb rd idx => exact rdlimb rd idx
  | wrlimb rd idx v => exact wrlimb rd idx v
  | rdlzc rd => exact rdlzc rd

theorem regNumberFits_iff (r : Nat) : regNumberFits r = true ↔ r < 16 := by
  simp [regNumberFits]

theorem indexFits_iff (i : Nat) : indexFits i = true ↔ i < 2 ^ 20 := by
  simp [indexFits]

/-- A register number that fits its field is read back from it (R52). -/
theorem regField_toNat {r : Nat} (h : regNumberFits r = true) : (BitVec.ofNat 4 r).toNat = r :=
  (BitVec.toNat_ofNat r 4).trans (Nat.mod_eq_of_lt ((regNumberFits_iff r).1 h))

/-- A digit index that fits its field is read back from it (R52). -/
theorem indexField_toNat {i : Nat} (h : indexFits i = true) : (BitVec.ofNat 20 i).toNat = i :=
  (BitVec.toNat_ofNat i 20).trans (Nat.mod_eq_of_lt ((indexFits_iff i).1 h))

/-- The fields of a well-formed command's word hold the command's operands (R50, R51). -/
theorem build_fields_encode {i : Instr} (h : i.WellFormed) :
    i.opcode.build (rdField (encode i)).toNat (rsField (encode i)).toNat (idxField (encode i)).toNat
      (kField (encode i)) = i := by
  cases i with
  | setz | isz | rdlzc | recip | scale | divs =>
    simp only [Instr.opcode, Opcode.build, encode, rdField_packFields, kField_packFields,
      regField_toNat h]
  | divo | add | sub | copy =>
    obtain ⟨hd, hs⟩ := (Bool.and_eq_true _ _).mp h
    simp only [Instr.opcode, Opcode.build, encode, rdField_packFields, rsField_packFields,
      kField_packFields, regField_toNat hd, regField_toNat hs]
  | rdlimb | wrlimb =>
    obtain ⟨hd, hx⟩ := (Bool.and_eq_true _ _).mp h
    simp only [Instr.opcode, Opcode.build, encode, rdField_packFields, idxField_packFields,
      kField_packFields, regField_toNat hd, indexField_toNat hx]

/-- Settles O1: the encoded word is of the command's row, and its fields hold the operands, so the
decoder builds the command again. -/
theorem decodeOfEncodeIsTheCommand : Obligations.DecodeOfEncodeIsTheCommand := fun i h =>
  (decode_ok_iff (encode i) i).2 ⟨i.opcode, spelledBy_encode i, (build_fields_encode h).symm⟩

/-! ## Decode, then encode -/

theorem regNumberFits_toNat (r : BitVec 4) : regNumberFits r.toNat = true :=
  (regNumberFits_iff _).2 r.isLt

theorem indexFits_toNat (i : BitVec 20) : indexFits i.toNat = true :=
  (indexFits_iff _).2 i.isLt

theorem wellFormed_build (op : Opcode) (rd rs : BitVec 4) (idx : BitVec 20) (k : Scalar) :
    (op.build rd.toNat rs.toNat idx.toNat k).WellFormed := by
  cases op <;> simp [Opcode.build, Instr.WellFormed, Instr.wellFormed, regNumberFits_toNat,
    indexFits_toNat]

/-- The word of a built command packs its fields, when those the operation drops are zero (R51). -/
theorem encode_build {op : Opcode} {rd rs : BitVec 4} {idx : BitVec 20} {k : Scalar}
    (hrs : op.usesRS = true ∨ rs = 0) (hidx : op.usesIDX = true ∨ idx = 0)
    (hk : op.usesK = true ∨ k = 0) :
    encode (op.build rd.toNat rs.toNat idx.toNat k) = packFields k op.code rd rs idx := by
  cases op <;> simp_all [Opcode.build, encode, Instr.opcode, Opcode.usesRS, Opcode.usesIDX,
    Opcode.usesK]

/-- Settles O2: a decoded command is built from the word's fields, and the fields it drops are zero,
so its encoding packs the same fields. -/
theorem encodeOfDecodeIsTheWord : Obligations.EncodeOfDecodeIsTheWord := by
  intro w i h
  obtain ⟨op, hspelled, rfl⟩ := (decode_ok_iff w i).1 h
  obtain ⟨hopc, hzero⟩ := (spelledBy_iff op w).1 hspelled
  obtain ⟨hrs, hidx, hk⟩ := (unusedFieldsZero_iff op w).1 hzero
  refine ⟨wellFormed_build op _ _ _ _, ?_⟩
  rw [encode_build hrs hidx hk, ← hopc, packFields_of_fields]

/-! ## Words written out by hand -/

/-- Settles O6: the decoder evaluates each of the twelve words to what the tables say. -/
theorem handWrittenWordsDecode : Obligations.HandWrittenWordsDecode :=
  ⟨rfl, rfl, rfl, rfl, rfl, rfl, rfl, rfl, rfl, rfl, rfl, rfl⟩

end Sys2Proof
end

section
/-! PROOFS. What a step does at the ports (spec/30_encoding.md section 6, spec/60_exceptions.md
sections 8 and 9), what every step keeps (spec/10_state.md, spec/00_scope.md R9), and reset
(spec/70_reset_and_hazards.md R140). -/

namespace Sys2Proof.Machine

/-- An outcome is one next state. -/
theorem eq_of_next {o : Host.Outcome State Fault Refusal} {s t : State} (hs : o = .next s)
    (ht : o = .next t) : s = t :=
  Host.Outcome.next.inj (hs.symm.trans ht)

/-! ## The equations of a step, by the next input -/

theorem step_idle {s : State} (hi : s.inbox = []) : step s = .next s := by
  simp only [step, handleInput, hi]

theorem step_takeResponse {s : State} {rest : List Input} (hi : s.inbox = .takeResponse :: rest) :
    step s = .next (s.takeOldest rest) := by
  simp only [step, handleInput, hi]

/-- A word that spells no command raises `ILLEGAL_COMMAND` on an unfaulted block (R54, R59 step 2). -/
theorem step_decode_error {s : State} {w : CommandWord} {rest : List Input} {e : DecodeError}
    (hi : s.inbox = .command w :: rest) (hf : s.fault = false) (he : decode w = .error e) :
    step s = .next ((s.accept rest).raise .illegalCommand) :=
  step_illegal hi hf ((decode_error_iff w).1 ⟨e, he⟩)

/-- Settles O9: the equations of the idle step and of the step that takes a response. -/
theorem idleAndTakenResponses : Obligations.IdleAndTakenResponses := by
  refine ⟨fun s hi => step_idle hi, fun s rest r rs hi hr => ?_⟩
  rw [step_takeResponse hi, State.takeOldest, hr, List.tail_cons]

/-- Settles O8: each kind of input has its equation, and a command that decodes answers a next state
(`exec_next`). -/
theorem everyStepHasANextState : Obligations.EveryStepHasANextState := by
  intro s
  match hi : s.inbox with
  | [] => exact ⟨_, step_idle hi⟩
  | .takeResponse :: rest => exact ⟨_, step_takeResponse hi⟩
  | .reset :: rest => exact ⟨_, step_reset hi⟩
  | .command w :: rest =>
    cases hd : decode w with
    | ok i => rw [step_command hi hd]; exact exec_next i _
    | error e =>
      cases hf : s.fault with
      | true => exact ⟨_, step_faulted hi hf⟩
      | false => exact ⟨_, step_decode_error hi hf hd⟩

/-! ## A word of the opcode table -/

theorem decode_of_decodeTableWord {nbits w : Nat} {i : Instr}
    (h : decodeTableWord nbits w = some i) : decode (tableWord nbits w) = .ok i := by
  unfold decodeTableWord at h
  split at h
  · simp at h
  · cases hd : decode (tableWord nbits w) with
    | error e => simp [hd, Except.toOption] at h
    | ok j => simpa [hd, Except.toOption] using h

/-- Accepting a word presented ahead of the other inputs leaves the state as it was (log entry 4). -/
theorem accept_withFetchWord (s : State) (nbits w : Nat) :
    (s.withFetchWord nbits w).accept s.inbox = s := rfl

/-- Settles O7: both clauses are the equation of a decoded command at the port. -/
theorem stepRunsTheDecodedCommand : Obligations.StepRunsTheDecodedCommand := by
  refine ⟨fun s w rest i hi hd => step_command hi hd, fun s nbits w i hd => ?_⟩
  have hport : (s.withFetchWord nbits w).inbox = .command (tableWord nbits w) :: s.inbox := rfl
  rw [step_command hport (decode_of_decodeTableWord hd), accept_withFetchWord]

/-! ## What a command leaves at the ports, and the build -/

/-- A command keeps the build and the inputs, and adds one response behind the earlier ones. -/
theorem exec_ports {i : Instr} {s t : State} (h : exec i s = .next t) :
    t.cfg = s.cfg ∧ t.inbox = s.inbox ∧ ∃ r : Response, t.responses = s.responses ++ [r] := by
  rcases exec_cases h with ⟨-, rfl⟩ | ⟨-, c, -, rfl⟩ | ⟨-, effect⟩
  · exact ⟨rfl, rfl, _, rfl⟩
  · exact ⟨rfl, rfl, _, rfl⟩
  · cases effect with
    | answer data e => exact e ▸ ⟨rfl, rfl, _, rfl⟩
    | write rd b _ _ e => exact e ▸ ⟨rfl, rfl, _, rfl⟩
    | negative rd rs _ _ e => exact e ▸ ⟨rfl, rfl, _, rfl⟩

theorem step_command_ports {s t : State} {w : CommandWord} {rest : List Input}
    (hi : s.inbox = .command w :: rest) (h : step s = .next t) :
    t.cfg = s.cfg ∧ t.inbox = rest ∧ ∃ r : Response, t.responses = s.responses ++ [r] := by
  rcases step_command_cases hi h with ⟨-, rfl⟩ | ⟨-, -, rfl⟩ | ⟨-, i, -, he⟩
  · exact ⟨rfl, rfl, _, rfl⟩
  · exact ⟨rfl, rfl, _, rfl⟩
  · exact exec_ports he

/-- Settles O10: a step exists, and a command word at the port leaves the ports so. -/
theorem eachCommandAddsOneResponse : Obligations.EachCommandAddsOneResponse := by
  intro s w rest hi
  obtain ⟨t, ht⟩ := everyStepHasANextState s
  obtain ⟨-, hinbox, r, hr⟩ := step_command_ports hi ht
  exact ⟨t, r, ht, hinbox, hr⟩

/-- Settles O24: no input but a command could write the build, and no command does. -/
theorem noStepChangesTheBuild : Obligations.NoStepChangesTheBuild := by
  intro s t h
  rcases step_cases h with ⟨-, rfl⟩ | ⟨rest, -, rfl⟩ | ⟨rest, -, rfl⟩ | ⟨w, rest, hi, -⟩
  · rfl
  · rfl
  · rfl
  · obtain ⟨hcfg, -, -⟩ := step_command_ports hi h
    exact hcfg

/-! ## Reset -/

/-- Of the state before it, the state after reset keeps the build and the model's own counter. -/
theorem assertReset_eq_of_cfg {s t : State} (hcfg : s.cfg = t.cfg) (rest : List Input) :
    { s.assertReset rest with freeTick := 0 } = { t.assertReset rest with freeTick := 0 } := by
  simp only [State.assertReset, hcfg]

/-- Settles O18: the command before the reset keeps the build and the reset behind it, and the reset
clears all else. -/
theorem resetAbandonsTheCommandBeforeIt : Obligations.ResetAbandonsTheCommandBeforeIt := by
  refine ⟨fun s rest hi => ⟨_, step_reset hi, rfl, rfl, rfl⟩, fun s w rest t hi h => ?_⟩
  obtain ⟨hcfg, hinbox, -⟩ := step_command_ports hi h
  exact ⟨_, _, step_reset hinbox, step_reset rfl, rfl, assertReset_eq_of_cfg hcfg rest⟩

/-! ## Register numbers the build lacks -/

theorem operandFault_badRegister {cfg : Config} {regs : List Nat} {idx : Option Nat}
    {divisor : Option Scalar} (h : badRegister cfg regs = true) :
    operandFault cfg regs idx divisor = some .illegalCommand := by
  simp [operandFault, h]

/-- Settles O20: the check of the register numbers fires first in the rule of every command; a
faulted block answers before any check. -/
theorem commandsNamingNoRegisterAreIllegal : Obligations.CommandsNamingNoRegisterAreIllegal := by
  refine ⟨fun s rd k idx hf h => ?_, fun s rd rs k hf h => ?_, fun s i hf => exec_faulted hf i⟩
  · have hbad : badRegister s.cfg [rd] = true := by simpa using h
    simp only [List.forall_mem_cons]
    refine ⟨?_, ?_, ?_, ?_, ?_, ?_, ?_, ?_, by simp⟩ <;> unfold exec <;>
      exact runCommand_checked hf (operandFault_badRegister hbad)
  · have hbad : badRegister s.cfg [rd, rs] = true := by simpa using h
    simp only [List.forall_mem_cons]
    refine ⟨?_, ?_, ?_, ?_, by simp⟩ <;> unfold exec <;>
      exact runCommand_checked hf (operandFault_badRegister hbad)

/-! ## The invariant -/

/-- Settles O21: the reset state of a legal build; the reference build is legal. -/
theorem invariantHoldsAfterReset : Obligations.InvariantHoldsAfterReset :=
  ⟨fun _ h => inv_resetOf h, inv_resetOf (by decide)⟩

theorem inv_accept {s : State} (hs : s.Inv) (rest : List Input) : (s.accept rest).Inv :=
  inv_congr hs rfl rfl rfl rfl

theorem inv_answerFaulted {s : State} (hs : s.Inv) : s.answerFaulted.Inv :=
  inv_congr hs rfl rfl rfl rfl

theorem inv_assertReset {s : State} (hs : s.Inv) (rest : List Input) : (s.assertReset rest).Inv :=
  inv_congr (inv_resetOf hs.legalBuild) rfl rfl rfl rfl

theorem exec_inv {i : Instr} {s t : State} (hs : s.Inv) (h : exec i s = .next t) : t.Inv := by
  rcases exec_cases h with ⟨-, rfl⟩ | ⟨hf, c, -, rfl⟩ | ⟨hf, effect⟩
  · exact inv_answerFaulted hs
  · exact inv_raise ⟨hs, hf⟩ c
  · cases effect with
    | answer data e => exact e ▸ inv_respond hs _ _
    | write rd b hrd hb e => exact e ▸ inv_respond (inv_writeReg ⟨hs, hf⟩ hrd (hb ⟨hs, hf⟩)) _ _
    | negative rd rs _ _ e => exact e ▸ inv_spoil_raise ⟨hs, hf⟩ rd

/-- Settles O22: the invariant is kept by each kind of input, and by a command in each of its ways
to end. -/
theorem everyStepKeepsTheInvariant : Obligations.EveryStepKeepsTheInvariant := by
  intro s t hs h
  rcases step_cases h with ⟨-, rfl⟩ | ⟨rest, -, rfl⟩ | ⟨rest, -, rfl⟩ | ⟨w, rest, -, hc⟩
  · exact hs
  · exact inv_congr hs rfl rfl rfl rfl
  · exact inv_assertReset hs rest
  · have hs' := inv_accept hs rest
    rcases hc with ⟨-, rfl⟩ | ⟨hf, -, rfl⟩ | ⟨-, i, -, he⟩
    · exact inv_answerFaulted hs'
    · exact inv_raise ⟨hs', hf⟩ .illegalCommand
    · exact exec_inv hs' he

end Sys2Proof.Machine
end

section
/-! PROOFS. What a `SUB` that went negative leaves in its destination is never observed
(spec/60_exceptions.md R115, spec/93_implementation_defined.md section 1). -/

namespace Sys2Proof.Machine

/-! ## Each update of the state keeps two states alike -/

/-- On an unfaulted block two alike states differ at most in the free values still to come. -/
theorem State.Alike.eq_of_unfaulted {s t : State} (h : s.Alike t) (hf : s.fault = false) :
    t = { s with freeTick := t.freeTick } := by
  obtain ⟨hcfg, hinbox, hresponses, hfault, hfcause, hregs⟩ := h
  cases s; cases t
  simp_all

theorem alike_freeTick (s : State) (n : Nat) : s.Alike { s with freeTick := n } :=
  ⟨rfl, rfl, rfl, rfl, rfl, fun _ => rfl⟩

section

variable {s t : State} (h : s.Alike t)
include h

theorem State.Alike.accept (rest : List Input) : (s.accept rest).Alike (t.accept rest) :=
  ⟨h.cfg, rfl, h.responses, h.fault, h.fcause, h.regs⟩

theorem State.Alike.takeOldest (rest : List Input) : (s.takeOldest rest).Alike (t.takeOldest rest) :=
  ⟨h.cfg, rfl, congrArg List.tail h.responses, h.fault, h.fcause, h.regs⟩

theorem State.Alike.assertReset (rest : List Input) :
    (s.assertReset rest).Alike (t.assertReset rest) :=
  ⟨h.cfg, rfl, rfl, rfl, rfl, fun _ => by simp [h.cfg]⟩

theorem State.Alike.answerFaulted : s.answerFaulted.Alike t.answerFaulted :=
  ⟨h.cfg, h.inbox, by simp [h.responses, h.fcause], h.fault, h.fcause, h.regs⟩

/-- A raised fault hides the registers, so nothing need be known of them (R113). -/
theorem State.Alike.raise (c : Cause) : (s.raise c).Alike (t.raise c) :=
  ⟨h.cfg, h.inbox, by simp [h.responses], rfl, rfl, fun hf => by simp at hf⟩

/-- The registers a negative `SUB` leaves differ, but behind a fault (R115). -/
theorem State.Alike.spoil_raise (rd : Nat) (c : Cause) :
    ((s.spoil rd).raise c).Alike ((t.spoil rd).raise c) :=
  ⟨h.cfg, h.inbox, by simp [h.responses], rfl, rfl, fun hf => by simp at hf⟩

end

/-! ## A command and a step on two alike states -/

/-- The checks of R59 read only what alike states share, so a command whose own rule keeps states
that differ in the free values alike keeps all alike states alike. -/
theorem runCommand_alike {regs : List Nat} {idx : Option Nat} {divisor : Option Scalar}
    {rule : State → State} (hrule : ∀ s n, (rule s).Alike (rule { s with freeTick := n }))
    {s t s' t' : State} (h : s.Alike t) (hs : runCommand regs idx divisor rule s = .next s')
    (ht : runCommand regs idx divisor rule t = .next t') : s'.Alike t' := by
  have hcfg := h.cfg
  have hfault := h.fault
  rcases runCommand_cases hs with ⟨hf, rfl⟩ | ⟨hf, c, -, hc, rfl⟩ | ⟨hf, hc, rfl⟩ <;>
    rw [hfault] at hf
  · obtain rfl := eq_of_next (runCommand_faulted hf) ht
    exact h.answerFaulted
  · obtain rfl := eq_of_next (runCommand_checked hf (hcfg ▸ hc)) ht
    exact h.raise c
  · obtain rfl := eq_of_next (runCommand_passed hf (hcfg ▸ hc)) ht
    rw [h.eq_of_unfaulted (hfault.trans hf)]
    exact hrule s t.freeTick

/-- No command reads the counter of the free values but a `SUB` that goes negative, which hides them
behind its fault. -/
theorem exec_alike {i : Instr} {s t s' t' : State} (h : s.Alike t) (hs : exec i s = .next s')
    (ht : exec i t = .next t') : s'.Alike t' := by
  cases i <;> unfold exec at hs ht
  case sub rd rs =>
    refine runCommand_alike (fun s n => ?_) h hs ht
    have hreg (r : Nat) : State.reg { s with freeTick := n } r = s.reg r := rfl
    simp only [hreg]
    split
    · exact (alike_freeTick s n).spoil_raise rd _
    · exact alike_freeTick _ n
  all_goals exact runCommand_alike (fun s n => alike_freeTick _ n) h hs ht

/-- Settles O19: alike states take the same input, by the same equation of a step; a decoded command
keeps them alike. -/
theorem unspecifiedRegisterIsNeverObserved : Obligations.UnspecifiedRegisterIsNeverObserved := by
  intro s t s' t' h hs ht
  have hinbox := h.inbox
  match hi : s.inbox with
  | [] =>
    obtain rfl := eq_of_next (step_idle hi) hs
    obtain rfl := eq_of_next (step_idle (hinbox ▸ hi)) ht
    exact h
  | .takeResponse :: rest =>
    obtain rfl := eq_of_next (step_takeResponse hi) hs
    obtain rfl := eq_of_next (step_takeResponse (hinbox ▸ hi)) ht
    exact h.takeOldest rest
  | .reset :: rest =>
    obtain rfl := eq_of_next (step_reset hi) hs
    obtain rfl := eq_of_next (step_reset (hinbox ▸ hi)) ht
    exact h.assertReset rest
  | .command w :: rest =>
    have hi' : t.inbox = .command w :: rest := hinbox ▸ hi
    rcases step_command_cases hi hs with ⟨hf, rfl⟩ | ⟨hf, ⟨e, he⟩, rfl⟩ | ⟨-, i, hd, hexec⟩
    · obtain rfl := eq_of_next (step_faulted hi' (h.fault ▸ hf)) ht
      exact (h.accept rest).answerFaulted
    · obtain rfl := eq_of_next (step_decode_error hi' (h.fault ▸ hf) he) ht
      exact (h.accept rest).raise _
    · rw [step_command hi' hd] at ht
      exact exec_alike (h.accept rest) hexec ht

end Sys2Proof.Machine
end

section
/-! PROOFS. The numerator and the count of a register (spec/00_scope.md section 6,
spec/40_zero_tracker.md section 1), and what a completed command leaves of them. -/

namespace Sys2Proof.Machine

/-! ## The count by the numerator, the digits by the numerator -/

theorem le_leadingZeros_of_numerator_lt {as : List Digit} {j : Nat} (hj : j ≤ as.length)
    (h : numerator as < base ^ (as.length - j)) : j ≤ leadingZeros as := by
  by_contra hlt
  have hlow := le_numerator_of_leadingZeros as (by omega)
  have hpow : base ^ (as.length - j) ≤ base ^ (as.length - 1 - leadingZeros as) :=
    base_pow_le (by omega)
  omega

theorem leadingZeros_le_of_le_numerator {as : List Digit} {j : Nat} (hj : j < as.length)
    (h : base ^ (as.length - 1 - j) ≤ numerator as) : leadingZeros as ≤ j := by
  by_contra hlt
  have hhigh := numerator_lt_of_leadingZeros as
  have hpow : base ^ (as.length - leadingZeros as) ≤ base ^ (as.length - 1 - j) :=
    base_pow_le (by omega)
  omega

/-- Settles O26: each bound on the numerator is one bound on the count. -/
theorem countBoundsTheNumerator : Obligations.CountBoundsTheNumerator := by
  intro as j hj
  constructor
  · rintro rfl
    exact ⟨le_numerator_of_leadingZeros as hj, numerator_lt_of_leadingZeros as⟩
  · rintro ⟨hlow, hhigh⟩
    exact (leadingZeros_le_of_le_numerator hj hlow).antisymm
      (le_leadingZeros_of_numerator_lt hj.le hhigh)

theorem numerator_inj {as bs : List Digit} (hl : as.length = bs.length)
    (h : numerator as = numerator bs) : as = bs := by
  induction as generalizing bs with
  | nil => exact (List.length_eq_zero_iff.1 hl.symm).symm
  | cons a as ih =>
    cases bs with
    | nil => simp at hl
    | cons b bs =>
      have hl : as.length = bs.length := by simpa using hl
      rw [numerator_cons, numerator_cons, hl] at h
      obtain ⟨hhead, htail⟩ := split_unique (hl ▸ numerator_lt as) (numerator_lt bs) h
      rw [BitVec.eq_of_toNat_eq hhead, ih hl htail]

/-- Settles O27: the digits are the base-`B` digits of the numerator, which are unique. -/
theorem numeratorDeterminesTheDigits : Obligations.NumeratorDeterminesTheDigits :=
  ⟨numerator_lt, fun _ _ hl h => numerator_inj hl h⟩

/-- No digit counts for more than the whole number. -/
theorem digit_mul_pow_le_numerator {as : List Digit} {i : Nat} (hi : i < as.length) :
    (as[i]?.getD 0).toNat * base ^ (as.length - 1 - i) ≤ numerator as := by
  induction as generalizing i with
  | nil => simp at hi
  | cons a as ih =>
    rw [numerator_cons]
    cases i with
    | zero => simp
    | succ j =>
      have hpow : (a :: as).length - 1 - (j + 1) = as.length - 1 - j := by
        rw [List.length_cons]; omega
      rw [List.getElem?_cons_succ, hpow]
      exact (ih (by simpa using hi)).trans (Nat.le_add_left _ _)

/-! ## Registers of running blocks -/

theorem num_lt {s : State} (hs : s.Inv) {r : Nat} (h : r < s.cfg.nreg) :
    s.num r < base ^ s.cfg.d := by
  rw [← dig_length hs h]
  exact numerator_lt _

section

variable {s t : State} (hs : s.Running) (ht : t.Running) (hcfg : t.cfg = s.cfg) {r q : Nat}
  (hr : r < s.cfg.nreg) (hq : q < s.cfg.nreg)
include hs ht hcfg hr hq

/-- A smaller number has no smaller count, in two states of one build. -/
theorem lzc_anti (hle : s.num r ≤ t.num q) : (t.reg q).lzc ≤ (s.reg r).lzc := by
  have hq' : q < t.cfg.nreg := hcfg ▸ hq
  have hl : (s.reg r).dig.length = (t.reg q).dig.length := by
    rw [dig_length hs.inv hr, dig_length ht.inv hq', hcfg]
  rw [running_tracked hs hr, running_tracked ht hq']
  exact leadingZeros_anti hl hle

/-- The numerator determines the whole register, its count among it. -/
theorem reg_eq_of_num_eq (h : t.num q = s.num r) : t.reg q = s.reg r := by
  have hq' : q < t.cfg.nreg := hcfg ▸ hq
  have hdig : (t.reg q).dig = (s.reg r).dig :=
    numerator_inj (by rw [dig_length hs.inv hr, dig_length ht.inv hq', hcfg]) h
  have hlzc : (t.reg q).lzc = (s.reg r).lzc := by
    rw [running_tracked ht hq', running_tracked hs hr, hdig]
  cases hb : t.reg q
  cases hc : s.reg r
  simp_all

end

/-! ## After a command that wrote one register and answered OK -/

theorem State.OnlyWrote.running {s t : State} {rd : Nat} {i : Instr} (hw : s.OnlyWrote rd t)
    (hs : s.Running) (h : exec i s = .next t) : t.Running :=
  exec_running hs h (hw.fault.trans hs.noFault)

theorem State.OnlyWrote.num_other {s t : State} {rd r : Nat} (hw : s.OnlyWrote rd t) (hr : r ≠ rd) :
    t.num r = s.num r := by
  rw [State.num, State.num, hw.others r hr]

/-- Two commands whose one check of registers is that of `rd` have equal outcomes from every state as
soon as they do on a running block that has the register: otherwise both are answered `FAULTED`, or
both raise `ILLEGAL_COMMAND` (R59 steps 1 and 3). -/
theorem exec_eq_of_running {i j : Instr} {s : State} {rd : Nat} (hs : s.Inv)
    (hi : s.fault = false → s.cfg.nreg ≤ rd → exec i s = .next (s.raised .illegalCommand))
    (hj : s.fault = false → s.cfg.nreg ≤ rd → exec j s = .next (s.raised .illegalCommand))
    (hrun : s.Running → rd < s.cfg.nreg → exec i s = exec j s) : exec i s = exec j s := by
  cases hf : s.fault with
  | true => rw [exec_faulted hf, exec_faulted hf]
  | false =>
    rcases Nat.lt_or_ge rd s.cfg.nreg with hrd | hrd
    · exact hrun ⟨hs, hf⟩ hrd
    · rw [hi hf hrd, hj hf hrd]

end Sys2Proof.Machine
end

section
/-! PROOFS. The laws of `RECIP`, `DIVO` and `DIVS` (spec/41_scalar_divide.md). -/

namespace Sys2Proof.Machine

/-! ## One step of long division -/

/-- Settles O31: the remainder is at most `d - 1`, so the intermediate is below `d * B`, which bounds
it, its quotient and its width. -/
theorem divisionStepFitsItsWidths : Obligations.DivisionStepFitsItsWidths := by
  intro rem d a hd hdB hrem
  have hquot := divStep_quotient_lt a hrem
  have hnum : rem * base + a.toNat < d * base :=
    calc rem * base + a.toNat < rem * base + base := Nat.add_lt_add_left (digit_lt_base a) _
      _ = (rem + 1) * base := (Nat.succ_mul rem base).symm
      _ ≤ d * base := Nat.mul_le_mul_right _ hrem
  have hwidth : d * base ≤ 2 ^ 128 :=
    calc d * base ≤ base * base := Nat.mul_le_mul_right _ (hdB.trans (Nat.sub_le _ _))
      _ = 2 ^ 128 := rfl
  exact ⟨Nat.le_sub_one_of_lt hnum, hnum.trans_le hwidth, Nat.le_sub_one_of_lt hquot,
    divStep_fst a hrem, rfl, Nat.mod_lt _ hd⟩

/-! ## `RECIP` -/

/-- A divisor below `B` leaves of `B^n` at least `B^(n-1)`: the most significant digit of the
reciprocal is not 0 (R71). -/
theorem leadingZeros_recipDigits {x : Scalar} (hx : 2 ≤ x.toNat) {n : Nat} (hn : 1 ≤ n) :
    leadingZeros (recipDigits x.toNat n 1) = 0 := by
  have hpow : base ^ (n - 1) * x.toNat ≤ base ^ n :=
    calc base ^ (n - 1) * x.toNat ≤ base ^ (n - 1) * base :=
          Nat.mul_le_mul_left _ (digit_lt_base x).le
      _ = base ^ n := pow_sub_one_mul (by omega) base
  refine Nat.le_zero.1 (leadingZeros_le_of_le_numerator (by rwa [recipDigits_length]) ?_)
  rw [recipDigits_length, Nat.sub_zero, recipDigits_numerator n hx, Nat.one_mul]
  exact (Nat.le_div_iff_mul_le (by omega)).2 hpow

/-- Settles O33: `RECIP` is long division of `B^D`; for `x = 1` its digits are all 0. -/
theorem recipIsTheTruncatedReciprocal : Obligations.RecipIsTheTruncatedReciprocal := by
  intro s rd x hs h hx
  obtain ⟨hd, -⟩ := (legal_iff s.cfg).1 hs.inv.legalBuild
  refine ⟨_, exec_recip_passed hs h hx, onlyWrote_writeDigits s rd _, fun h2 => ⟨?_, ?_⟩,
    fun h1 => ⟨?_, ?_⟩⟩
  · rw [num_written hs h, recipDigits_numerator _ h2, Nat.one_mul]
  · rw [reg_written hs.inv h]
    exact leadingZeros_recipDigits h2 hd
  · rw [num_written hs h, h1, recipDigits_one, numerator_replicate_zero]
  · rw [reg_written hs.inv h, h1, recipDigits_one, leadingZeros_replicate]

/-! ## `DIVO` and `DIVS` -/

/-- Settles O42: the tracked count is exact, so the digits before it are the zeros that long division
would compute (R34). -/
theorem skippingKnownZerosChangesNothing : Obligations.SkippingKnownZerosChangesNothing :=
  fun _ _ d hs h _ => ⟨zeros_append_divDigits hs h d.toNat, kept_append_divDigits hs h d.toNat⟩

/-- Settles O38: on a running block both write the same quotient, or find the divisor zero. -/
theorem divoOntoItselfIsDivs : Obligations.DivoOntoItselfIsDivs := by
  intro s rd d hs
  obtain ⟨hone, htwo, -⟩ := commandsNamingNoRegisterAreIllegal
  refine exec_eq_of_running (rd := rd) hs (fun hf h => htwo s rd rd d hf (.inl h) _ (by simp))
    (fun hf h => hone s rd d 0 hf h _ (by simp)) fun hr h => ?_
  by_cases hd : d = 0
  · rw [hd, exec_divo_zero hr h h, exec_divs_zero hr h]
  · rw [exec_divo_passed hr h h hd, exec_divs_passed hr h hd]

theorem divo_takes_floor {s : State} {rd rs : Nat} {d : Scalar} (hs : s.Running)
    (h : rd < s.cfg.nreg) (h' : rs < s.cfg.nreg) (hd : d ≠ 0) :
    ∃ t, exec (.divo rd rs d) s = .next t ∧ s.OnlyWrote rd t ∧
      t.num rd = s.num rs / d.toNat ∧ (s.reg rs).lzc ≤ (t.reg rd).lzc := by
  have hexec := exec_divo_passed hs h h' hd
  have hw := onlyWrote_writeDigits s rd (divDigits d.toNat 0 (s.reg rs).dig)
  have hnum := (num_written hs h _).trans (divDigits_num s rs hd)
  exact ⟨_, hexec, hw, hnum,
    lzc_anti (hw.running hs hexec) hs hw.cfg.symm h h' (hnum.trans_le (Nat.div_le_self _ _))⟩

/-- Settles O36: long division takes the floor, and a quotient is not above the dividend, so its
count is not below; `DIVS` is `DIVO` onto itself. -/
theorem divisionTakesTheFloor : Obligations.DivisionTakesTheFloor := by
  refine ⟨fun s rd rs d hs h h' hd => divo_takes_floor hs h h' hd, fun s rd d hs h hd => ?_⟩
  rw [← divoOntoItselfIsDivs s rd d hs.inv]
  exact divo_takes_floor hs h h hd

/-! ## The count after a division -/

/-- A leading digit not below the divisor has a quotient digit that is not 0. -/
theorem leadingZeros_divDigits_of_le {d : Nat} (hd : 0 < d) {as : List Digit}
    (hlt : leadingZeros as < as.length) (hle : d ≤ (as[leadingZeros as]?.getD 0).toNat) :
    leadingZeros (divDigits d 0 as) = leadingZeros as := by
  obtain ⟨rem, hrem, hbefore, hloop⟩ := divDigits_loop_from_count hd as
  rw [leadingZeros_eq_iff (by rwa [divDigits_length])]
  refine ⟨fun hzero => ?_, hbefore⟩
  have hdigit := (hloop _ hlt).1
  rw [hzero, hrem, Nat.zero_mul, Nat.zero_add] at hdigit
  exact (Nat.div_pos hle hd).ne hdigit

/-- A leading digit below the divisor has the quotient digit 0 and is the next remainder, which the
next digit, if there is one, cannot bring to 0, as the divisor is below `B`. -/
theorem leadingZeros_divDigits_of_lt {d : Nat} (hdB : d < base) {as : List Digit}
    (hlt : leadingZeros as < as.length) (hsmall : (as[leadingZeros as]?.getD 0).toNat < d) :
    leadingZeros (divDigits d 0 as) = leadingZeros as + 1 := by
  have hd : 0 < d := by omega
  have hlead : 0 < (as[leadingZeros as]?.getD 0).toNat :=
    scalar_pos (getElem_at_leadingZeros as hlt)
  obtain ⟨rem, hrem, hbefore, hloop⟩ := divDigits_loop_from_count hd as
  obtain ⟨hdigit, hnext⟩ := hloop _ hlt
  rw [hrem, Nat.zero_mul, Nat.zero_add] at hdigit hnext
  rw [Nat.div_eq_of_lt hsmall] at hdigit
  rw [Nat.mod_eq_of_lt hsmall] at hnext
  have hzeros : ∀ i, i < leadingZeros as + 1 → (divDigits d 0 as)[i]?.getD 0 = 0 := by
    intro i hi
    rcases Nat.lt_succ_iff_lt_or_eq.1 hi with hi | rfl
    · exact hbefore i hi
    · exact BitVec.eq_of_toNat_eq hdigit
  rcases Nat.lt_or_eq_of_le (Nat.succ_le_of_lt hlt) with hmore | hlast
  · rw [leadingZeros_eq_iff (by rwa [divDigits_length])]
    refine ⟨fun hzero => ?_, hzeros⟩
    have hdigit' := (hloop _ hmore).1
    rw [hzero, hnext] at hdigit'
    refine (Nat.div_pos ?_ hd).ne hdigit'
    calc d ≤ 1 * base := by omega
      _ ≤ _ * base := Nat.mul_le_mul_right _ hlead
      _ ≤ _ := Nat.le_add_right _ _
  · have hlen := divDigits_length d 0 as
    rw [← hlast] at hlen
    rw [← Nat.succ_eq_add_one, ← hlen, leadingZeros_eq_length_iff, hlen]
    exact hzeros

/-- Settles O37: a zero source keeps its count, which has nowhere to go; otherwise the leading digit
decides. -/
theorem divisionMovesTheCountByAtMostOne : Obligations.DivisionMovesTheCountByAtMostOne := by
  intro s rd rs d t hs h h' hd ht c
  obtain rfl := eq_of_next (exec_divo_passed hs h h' hd) ht
  have hlen := dig_length hs.inv h'
  have hc : c = leadingZeros (s.reg rs).dig := running_tracked hs h'
  rw [reg_written hs.inv h]
  dsimp only
  rw [← hlen, State.limbRead, hc]
  refine ⟨fun hzero => ?_, leadingZeros_divDigits_of_le (scalar_pos hd),
    leadingZeros_divDigits_of_lt (digit_lt_base d)⟩
  rw [leadingZeros_eq_length_iff_numerator] at hzero
  rw [← divDigits_length d.toNat 0, leadingZeros_eq_length_iff_numerator, divDigits_num s rs hd,
    State.num, hzero, Nat.zero_div]

/-! ## Divisions in a row -/

/-- Settles O39: the floor of a floor of a quotient is the floor of the quotient by the product. -/
theorem twoDivisionsAreOneByTheProduct : Obligations.TwoDivisionsAreOneByTheProduct := by
  intro s rd a b hs h ha hb
  obtain ⟨-, hdivs⟩ := divisionTakesTheFloor
  obtain ⟨t, ht, hw, hnum, -⟩ := hdivs s rd a hs h ha
  obtain ⟨u, hu, -, hnum', -⟩ := hdivs t rd b (hw.running hs ht) (hw.cfg ▸ h) hb
  exact ⟨t, u, ht, hu, by rw [hnum', hnum, Nat.div_div_eq_div_mul]⟩

theorem execTimes_succ {i : Instr} {s t : State} (h : exec i s = .next t) (n : Nat) :
    execTimes i (n + 1) s = execTimes i n t := by
  rw [execTimes, h]

/-- `n` divisions by `d` complete and are one division by `d^n`. -/
theorem execTimes_divs {d : Scalar} (hd : d ≠ 0) {rd : Nat} (n : Nat) {s : State} (hs : s.Running)
    (h : rd < s.cfg.nreg) :
    ∃ t, execTimes (.divs rd d) n s = .next t ∧ t.Running ∧ t.cfg = s.cfg ∧
      t.num rd = s.num rd / d.toNat ^ n := by
  induction n generalizing s with
  | zero => exact ⟨s, rfl, hs, rfl, by rw [Nat.pow_zero, Nat.div_one]⟩
  | succ n ih =>
    obtain ⟨-, hdivs⟩ := divisionTakesTheFloor
    obtain ⟨t, ht, hw, hnum, -⟩ := hdivs s rd d hs h hd
    obtain ⟨u, hu, hrun, hcfg, hnum'⟩ := ih (hw.running hs ht) (hw.cfg ▸ h)
    refine ⟨u, (execTimes_succ ht n).trans hu, hrun, hcfg.trans hw.cfg, ?_⟩
    rw [hnum', hnum, Nat.div_div_eq_div_mul, Nat.pow_succ']

/-- Settles O41: a number of `D` digits is below `2^(64*D)`, hence below `d^(64*D)`. -/
theorem repeatedDivisionReachesZero : Obligations.RepeatedDivisionReachesZero := by
  intro s rd d hs h h2
  have hd : d ≠ 0 := by rintro rfl; simp at h2
  obtain ⟨t, ht, hrun, hcfg, hnum⟩ := execTimes_divs hd (64 * s.cfg.d) hs h
  have hsmall : s.num rd < d.toNat ^ (64 * s.cfg.d) :=
    calc s.num rd < base ^ s.cfg.d := num_lt hs.inv h
      _ = 2 ^ (64 * s.cfg.d) := (Nat.pow_mul 2 64 s.cfg.d).symm
      _ ≤ d.toNat ^ (64 * s.cfg.d) := Nat.pow_le_pow_left h2 _
  have hzero : t.num rd = 0 := hnum.trans (Nat.div_eq_of_lt hsmall)
  have hcount := (isZero_iff_num hrun (hcfg ▸ h)).2 hzero
  rw [isZero_iff, hcfg] at hcount
  exact ⟨_, t, le_rfl, ht, hrun.noFault, hzero, hcount⟩

end Sys2Proof.Machine
end

section
/-! PROOFS. The laws of `SCALE` (spec/42_scalar_multiply.md R81 and R82). -/

namespace Sys2Proof.Machine

/-! ## The width of the intermediate -/

theorem scale_intermediate_le {k carry : Nat} (hk : 1 ≤ k) (hc : carry ≤ k - 1) (a : Digit) :
    carry + k * a.toNat ≤ k * base - 1 := by
  have hmul : k * (a.toNat + 1) ≤ k * base := Nat.mul_le_mul_left k (digit_lt_base a)
  rw [Nat.mul_succ] at hmul
  omega

/-- The carry of `SCALE` stays below the scalar (R82). -/
theorem scaleDigits_carry_le (k : Nat) (as : List Digit) : (scaleDigits k as).2 ≤ k - 1 := by
  induction as with
  | nil => exact Nat.zero_le _
  | cons a as ih =>
    dsimp only [scaleDigits]
    rcases Nat.eq_zero_or_pos k with rfl | hk
    · rw [Nat.le_zero.1 ih, Nat.zero_mul, Nat.zero_add, Nat.zero_div]
    · have hle := scale_intermediate_le hk ih a
      have hpos : 0 < k * base := Nat.mul_pos hk base_pos
      exact Nat.le_sub_one_of_lt ((Nat.div_lt_iff_lt_mul base_pos).2 (by omega))

/-- Settles O45: the carry stays below `k`, so the intermediate stays below `k * B`, which is at
most `B * B`. -/
theorem scaleIntermediateFitsItsWidth : Obligations.ScaleIntermediateFitsItsWidth := by
  intro k a as
  have hcarry := scaleDigits_carry_le k.toNat as
  refine ⟨hcarry, ?_, fun hk => scale_intermediate_le hk hcarry a⟩
  calc (scaleDigits k.toNat as).2 + k.toNat * a.toNat ≤ base - 1 + k.toNat * a.toNat :=
        Nat.add_le_add_right (hcarry.trans (Nat.sub_le_sub_right (digit_lt_base k).le 1)) _
    _ ≤ base - 1 + (base - 1) * (base - 1) := Nat.add_le_add_left
        (Nat.mul_le_mul (Nat.le_sub_one_of_lt (digit_lt_base k))
          (Nat.le_sub_one_of_lt (digit_lt_base a))) _
    _ < 2 ^ 128 := by decide

/-! ## The product -/

theorem scale_multiplies {s : State} {rd : Nat} (k : Scalar) (hs : s.Running)
    (h : rd < s.cfg.nreg) :
    ∃ t, exec (.scale rd k) s = .next t ∧ s.OnlyWrote rd t ∧
      t.num rd = k.toNat * s.num rd % base ^ s.cfg.d ∧
      (scaleDigits k.toNat (s.reg rd).dig).2 = k.toNat * s.num rd / base ^ s.cfg.d := by
  obtain ⟨hnum, hcarry⟩ := scaleDigits_num hs h k
  exact ⟨_, exec_scale_passed hs h, onlyWrote_writeDigits s rd _, (num_written hs h _).trans hnum,
    hcarry⟩

/-- Settles O44: digits and dropped carry are the product's low and high part, and reducing modulo
`B^D` before the second scaling does not show in the result. -/
theorem scaleMultipliesModuloTheRange : Obligations.ScaleMultipliesModuloTheRange := by
  refine ⟨fun s rd k hs h => scale_multiplies k hs h, fun s rd a b hs h => ?_⟩
  obtain ⟨t, ht, hw, hnum, -⟩ := scale_multiplies a hs h
  obtain ⟨u, hu, -, hnum', -⟩ := scale_multiplies b (hw.running hs ht) (hw.cfg ▸ h)
  refine ⟨t, u, ht, hu, ?_⟩
  rw [hnum', hnum, hw.cfg, Nat.mul_mod_mod, ← Nat.mul_assoc, Nat.mul_comm b.toNat]

end Sys2Proof.Machine
end

section
/-! PROOFS. The laws of `ADD` and `SUB` (spec/43_add_sub.md R86 and R88), and of the two with one
register for both operands (spec/70_reset_and_hazards.md R144). -/

namespace Sys2Proof.Machine

/-! ## `ADD` -/

/-- Settles O47: digits and dropped carry are the sum's low and high part. -/
theorem addSumsModuloTheRange : Obligations.AddSumsModuloTheRange := by
  intro s rd rs hs h h'
  obtain ⟨hnum, hcarry⟩ := addDigits_num hs h h'
  exact ⟨_, exec_add_passed hs h h', onlyWrote_writeDigits s rd _, (num_written hs h _).trans hnum,
    hcarry⟩

/-- Numbers that both start after `m` digits have a sum below twice the power they are below. -/
theorem sum_lt_of_count {s : State} (hs : s.Running) {rd rs m : Nat} (h : rd < s.cfg.nreg)
    (h' : rs < s.cfg.nreg) (hm : m ≤ (s.reg rd).lzc) (hm' : m ≤ (s.reg rs).lzc) :
    s.num rd + s.num rs < 2 * base ^ (s.cfg.d - m) := by
  have hlt := num_lt_of_count hs h
  have hlt' := num_lt_of_count hs h'
  have hpow : base ^ (s.cfg.d - (s.reg rd).lzc) ≤ base ^ (s.cfg.d - m) := base_pow_le (by omega)
  have hpow' : base ^ (s.cfg.d - (s.reg rs).lzc) ≤ base ^ (s.cfg.d - m) := base_pow_le (by omega)
  omega

/-- Settles O48: with `m` leading zeros in both, the sum is below `2 * B^(D-m)`, which bounds the
carry out, the count and digit `m - 1`; without a carry out the sum is below no operand. -/
theorem addLowersTheCountByAtMostOne : Obligations.AddLowersTheCountByAtMostOne := by
  intro s rd rs t hs h h' ht m
  obtain ⟨t', ht', hw, hmod, -⟩ := addSumsModuloTheRange s rd rs hs h h'
  obtain rfl := eq_of_next ht' ht
  have hrun := hw.running hs ht
  have hcfg : t'.cfg = s.cfg := hw.cfg
  have hlen : (t'.reg rd).dig.length = s.cfg.d := hcfg ▸ dig_length hrun.inv (hcfg ▸ h)
  have hnum (hno : s.num rd + s.num rs < base ^ s.cfg.d) :
      numerator (t'.reg rd).dig = s.num rd + s.num rs := hmod.trans (Nat.mod_eq_of_lt hno)
  refine ⟨fun hm => ?_, fun hno => ?_⟩
  · have hmd : m ≤ s.cfg.d := (Nat.min_le_left _ _).trans (running_lzc_le hs h)
    have hsum := sum_lt_of_count hs h h' (Nat.min_le_left _ _) (Nat.min_le_right _ _)
    have hpow : 2 * base ^ (s.cfg.d - m) ≤ base ^ (s.cfg.d - (m - 1)) :=
      calc 2 * base ^ (s.cfg.d - m) ≤ base * base ^ (s.cfg.d - m) :=
            Nat.mul_le_mul_right _ (by decide)
        _ = base ^ (s.cfg.d - m + 1) := Nat.pow_succ'.symm
        _ = base ^ (s.cfg.d - (m - 1)) := by congr 1; omega
    have hno : s.num rd + s.num rs < base ^ s.cfg.d :=
      (hsum.trans_le hpow).trans_le (base_pow_le (Nat.sub_le _ _))
    refine ⟨hno, ?_, ?_⟩
    · rw [running_tracked hrun (hcfg ▸ h)]
      refine le_leadingZeros_of_numerator_lt (by omega) ?_
      rw [hnum hno, hlen]
      exact hsum.trans_le hpow
    · have hdigit := digit_mul_pow_le_numerator (as := (t'.reg rd).dig) (i := m - 1) (by omega)
      rw [hnum hno, hlen, show s.cfg.d - 1 - (m - 1) = s.cfg.d - m by omega] at hdigit
      exact Nat.le_of_lt_succ
        (Nat.lt_of_mul_lt_mul_right (hdigit.trans_lt hsum))
  · have hsum : t'.num rd = s.num rd + s.num rs := hnum hno
    exact Nat.le_min.2 ⟨lzc_anti hs hrun hcfg h h (by omega), lzc_anti hs hrun hcfg h' h (by omega)⟩

/-! ## `SUB` -/

/-- Settles O50: the last carry is not 0, so the difference is written; it is not above the minuend,
so its count is not below. -/
theorem subSubtractsWhenNotNegative : Obligations.SubSubtractsWhenNotNegative := by
  intro s rd rs hs h h' hle
  have hcarry := (subDigits_carry_iff hs h h').not.2 hle.not_gt
  have hexec := exec_sub_passed hs h h' hcarry
  have hw := onlyWrote_writeDigits s rd (subDigits (s.reg rd).dig (s.reg rs).dig).1
  have hrun := hw.running hs hexec
  have hnum := (num_written hs h _).trans (subDigits_num hs h h' hle)
  have hzero := isZero_iff_num hrun h
  refine ⟨_, hexec, hw, hrun.noFault, hnum,
    lzc_anti hrun hs hw.cfg.symm h h (hnum.trans_le (Nat.sub_le _ _)), hzero.trans ?_⟩
  rw [hnum]
  omega

/-- Settles O51: a register whose count is smaller holds the larger number, and the last carry is 0
for a larger subtrahend. -/
theorem subOfALargerNumberFaults : Obligations.SubOfALargerNumberFaults := by
  intro s rd rs hs h h'
  refine ⟨fun hcount => ?_, fun hlt => ?_⟩
  · by_contra hge
    have hanti := lzc_anti hs hs rfl h' h (Nat.le_of_not_lt hge)
    omega
  · exact ⟨_, exec_sub_negative hs h h' ((subDigits_carry_iff hs h h').2 hlt), rfl, rfl, rfl,
      fun r hr => reg_spoil_other s hr, List.length_set, rfl, rfl⟩

/-! ## One command after another -/

/-- Settles O40: a quotient is not above its dividend, also where it has replaced it. -/
theorem quotientCanBeSubtracted : Obligations.QuotientCanBeSubtracted := by
  intro s rd rs d hs h h' hd
  obtain ⟨t, ht, hw, hnum, -⟩ := divo_takes_floor hs h h' hd
  have hcfg : t.cfg = s.cfg := hw.cfg
  have hle : t.num rd ≤ t.num rs := by
    by_cases hne : rs = rd
    · rw [hne]
    · rw [hnum, hw.num_other hne]
      exact Nat.div_le_self _ _
  obtain ⟨u, hu, -, hf, hdiff, -⟩ :=
    subSubtractsWhenNotNegative t rs rd (hw.running hs ht) (hcfg ▸ h') (hcfg ▸ h) hle
  refine ⟨t, u, ht, hu, hf, fun hne => ?_, fun heq => ?_⟩
  · rw [hdiff, hnum, hw.num_other hne.symm]
  · rw [hdiff, heq, Nat.sub_self]

/-- Settles O52: without a carry out the sum is exact, and the difference has the number, hence the
digits and the count, of the first operand; with one the sum has lost `B^D` and is below the second. -/
theorem addThenSubRestoresOrFaults : Obligations.AddThenSubRestoresOrFaults := by
  intro s rd rs hs h h'
  obtain ⟨t, ht, hw, hnum, -⟩ := addSumsModuloTheRange s rd rs hs h h'
  obtain ⟨u, hu⟩ := exec_next (.sub rd rs) t
  have hrun := hw.running hs ht
  have hcfg : t.cfg = s.cfg := hw.cfg
  have hrd : rd < t.cfg.nreg := hcfg ▸ h
  have hrs : rs < t.cfg.nreg := hcfg ▸ h'
  refine ⟨t, u, ht, hu, fun hne hno => ?_, fun hne hout => ?_, fun heq => ?_⟩
  · have hother := hw.num_other hne.symm
    rw [Nat.mod_eq_of_lt hno] at hnum
    obtain ⟨u', hu', hw', hf, hdiff, -⟩ := subSubtractsWhenNotNegative t rd rs hrun hrd hrs (by omega)
    obtain rfl := eq_of_next hu' hu
    exact ⟨hf, reg_eq_of_num_eq hs (hw'.running hrun hu) (hw'.cfg.trans hcfg) h h (by omega)⟩
  · have hother := hw.num_other hne.symm
    have hlt := num_lt hs.inv h
    have hlt' := num_lt hs.inv h'
    rw [Nat.mod_eq_sub_mod hout, Nat.mod_eq_of_lt (by omega)] at hnum
    obtain ⟨-, hneg⟩ := subOfALargerNumberFaults t rd rs hrun hrd hrs
    obtain ⟨u', hu', hf, hcause, -⟩ := hneg (by omega)
    obtain rfl := eq_of_next hu' hu
    exact ⟨hf, hcause⟩
  · subst heq
    obtain ⟨u', hu', -, hf, hdiff, -⟩ := subSubtractsWhenNotNegative t rd rd hrun hrd hrd le_rfl
    obtain rfl := eq_of_next hu' hu
    exact ⟨hf, hdiff.trans (Nat.sub_self _)⟩

/-! ## One register for both operands -/

/-- Adding a number to itself is scaling it by 2, digit by digit and carry by carry. -/
theorem addDigits_self (as : List Digit) : addDigits 0 as as = scaleDigits 2 as := by
  induction as with
  | nil => rfl
  | cons a as ih => simp only [addDigits, scaleDigits, ih, Nat.two_mul, Nat.add_assoc]

/-- Writing zero digits is writing the zero of the build. -/
theorem writeDigits_zeros (s : State) (rd d : Nat) :
    s.writeDigits rd (List.replicate d 0#64) = s.writeReg rd (BigNum.zero d) := by
  rw [State.writeDigits, leadingZeros_replicate, BigNum.zero]

theorem exec_sub_self {s : State} (hs : s.Running) {r : Nat} (h : r < s.cfg.nreg) :
    exec (.sub r r) s = exec (.setz r) s := by
  have hcarry := (subDigits_carry_iff hs h h).not.2 (lt_irrefl _)
  have hlen : (subDigits (s.reg r).dig (s.reg r).dig).1.length = s.cfg.d :=
    (subDigits_length _ _ rfl).trans (dig_length hs.inv h)
  have hdigits : (subDigits (s.reg r).dig (s.reg r).dig).1 = List.replicate s.cfg.d 0#64 := by
    refine numerator_inj (hlen.trans List.length_replicate.symm) ?_
    rw [subDigits_num hs h h le_rfl, Nat.sub_self, numerator_replicate_zero]
  rw [exec_sub_passed hs h h hcarry, hdigits, writeDigits_zeros, exec_setz_passed hs h]

/-- Settles O53: on a running block the two commands of each pair write the same digits. -/
theorem addAndSubOfOneRegister : Obligations.AddAndSubOfOneRegister := by
  intro s r hs
  obtain ⟨hone, htwo, -⟩ := commandsNamingNoRegisterAreIllegal
  refine ⟨?_, ?_⟩
  · refine exec_eq_of_running (rd := r) hs (fun hf h => htwo s r r 0 hf (.inl h) _ (by simp))
      (fun hf h => hone s r 2 0 hf h _ (by simp)) fun hr h => ?_
    rw [exec_add_passed hr h h, exec_scale_passed hr h, addDigits_self]
    rfl
  · exact exec_eq_of_running (rd := r) hs (fun hf h => htwo s r r 0 hf (.inl h) _ (by simp))
      (fun hf h => hone s r 0 0 hf h _ (by simp)) fun hr h => exec_sub_self hr h

end Sys2Proof.Machine
end
